-- ==== Sys2Proof/Word.lean ====
section
/-! DEFINITION. The word and byte types (00_scope.md R6, R9). -/

namespace Sys2Proof

/-- One byte of either memory region (10_state.md R29, R30). -/
abbrev Byte := BitVec 8

/-- A 16-bit pattern: a register, `pc`, `sp`, `bp`, an instruction word (00_scope.md R9). -/
abbrev Word := BitVec 16

end Sys2Proof
end

