-- ==== Sys2Proof/Config.lean ====
section
/-! DEFINITION. The parameters of the core as fields a claim can name (00_scope.md R7). The values the
spec decided are `Sys2Proof.params` in Decode.lean, where a later repair may mend them. `START_ADDRESS`
and `INIT_STATE` are arguments of `State.startRun` (Machine/Ops.lean). -/

namespace Sys2Proof

/-- The parameters of 00_scope.md R7 that the spec gives a value. -/
structure Config where
  /-- `OPC_NOT`: opcode number of NOT (D1). -/
  opcNot : BitVec 4
  /-- `OPC_LOCS`: opcode number of LOCS (D1). -/
  opcLocs : BitVec 4
  /-- `OPC_BR`: opcode number of BR (D1). -/
  opcBr : BitVec 4
  /-- `OPC_TRAP`: opcode number of TRAP (D1). -/
  opcTrap : BitVec 4
  /-- `TRAP_U_BIT`: position of TRAP's user/system flag (D5). -/
  trapUBit : Nat
  /-- `ASHR_FALLTHROUGH`: whether ASHR runs on into LSHR (D11). -/
  ashrFallthrough : Bool
  /-- `SP_MAX`: the largest value `sp` may hold (D19). -/
  spMax : Nat
  deriving DecidableEq, Repr

/-- What the spec requires of the encoding parameters: four distinct opcode numbers from {7, 11, 13, 14}
with TRAP the last of the enum (92_eei_decisions.md D1), and the user flag at bit 9 (the quoted pattern)
or bit 10 (the prose of 90_conflicts.md C4). -/
def Config.Valid (c : Config) : Prop :=
  c.opcTrap = 14 ∧
  (c.opcNot = 7 ∨ c.opcNot = 11 ∨ c.opcNot = 13) ∧
  (c.opcLocs = 7 ∨ c.opcLocs = 11 ∨ c.opcLocs = 13) ∧
  (c.opcBr = 7 ∨ c.opcBr = 11 ∨ c.opcBr = 13) ∧
  c.opcNot ≠ c.opcLocs ∧ c.opcNot ≠ c.opcBr ∧ c.opcLocs ≠ c.opcBr ∧
  (c.trapUBit = 9 ∨ c.trapUBit = 10)

end Sys2Proof
end

