-- ==== Sys2Proof/Syntax.lean ====
section
/-! DEFINITION. The instruction set as data: one constructor per row of spec/opcode_table.json, each
carrying only the fields of its style (30_encoding.md R82, R101). -/

namespace Sys2Proof

/-- A general-register index, a 3-bit field (10_state.md R20). -/
abbrev Reg := Fin 8

/-- One decoded instruction. `d` is the destination register, `s` the source register, `a` the address
register, `sgn` the signed/unsigned flag `S` (30_encoding.md R83 to R90). -/
inductive Instr where
  /-- ADD, style A-reg (R83, R143). -/
  | addReg (d : Reg) (sgn : Bool) (s : Reg)
  /-- ADD, style A-imm (R83, R143). -/
  | addImm (d : Reg) (imm : BitVec 6)
  /-- SUB, style A-reg (R83, R144). -/
  | subReg (d : Reg) (sgn : Bool) (s : Reg)
  /-- SUB, style A-imm (R83, R144). -/
  | subImm (d : Reg) (imm : BitVec 6)
  /-- AND, style A-reg (R83, R146). -/
  | andReg (d : Reg) (sgn : Bool) (s : Reg)
  /-- AND, style A-imm (R83, R146). -/
  | andImm (d : Reg) (imm : BitVec 6)
  /-- OR, style A-reg (R83, R147). -/
  | orReg (d : Reg) (sgn : Bool) (s : Reg)
  /-- OR, style A-imm (R83, R147). -/
  | orImm (d : Reg) (imm : BitVec 6)
  /-- CMP, style A-reg (R83, R145). -/
  | cmpReg (d : Reg) (sgn : Bool) (s : Reg)
  /-- CMP, style A-imm (R83, R145). -/
  | cmpImm (d : Reg) (imm : BitVec 6)
  /-- SHL by `n` (R84, R162). -/
  | shl (d : Reg) (n : BitVec 4)
  /-- ASHR by `n` (R84, R163). -/
  | ashr (d : Reg) (n : BitVec 4)
  /-- LSHR by `n` (R84, R164). -/
  | lshr (d : Reg) (n : BitVec 4)
  /-- NOT; its amount field is ignored (R84, R161). -/
  | not (d : Reg)
  /-- LD, style LD-imm (R85, R181). -/
  | ldImm (d : Reg) (imm : BitVec 6)
  /-- LD, style LD-bp (R85, R184). -/
  | ldBp (d : Reg) (off : BitVec 6)
  /-- LD, style LD-reg (R85, R182). -/
  | ldReg (d : Reg) (s : Reg)
  /-- LD, style LD-mem (R85, R183). -/
  | ldMem (d : Reg) (s : Reg)
  /-- ST, style ST-reg (R86, R185). -/
  | stReg (a : Reg) (s : Reg)
  /-- ST, style ST-imm (R86, R186). -/
  | stImm (a : Reg) (imm : BitVec 6)
  /-- ST, style ST-bp: bits 10 to 8 name the source (R86, R187). -/
  | stBp (s : Reg) (off : BitVec 6)
  /-- STACK with P = 1 (R87, R202). -/
  | push (mask : BitVec 8)
  /-- STACK with P = 0 (R87, R203). -/
  | pop (mask : BitVec 8)
  /-- LOCS: `alloc` is the flag A, `n` a size in words (R88, R204). -/
  | locs (alloc : Bool) (n : BitVec 6)
  /-- BR, condition jmp (R89, R222). -/
  | jmp (off : BitVec 9)
  /-- BR, condition jgt (R89, R223). -/
  | jgt (off : BitVec 9)
  /-- BR, condition jeq (R89, R224). -/
  | jeq (off : BitVec 9)
  /-- BR, condition jge (R89, R225). -/
  | jge (off : BitVec 9)
  /-- BR, condition jlt (R89, R226). -/
  | jlt (off : BitVec 9)
  /-- BR, condition jsr (R89, R227). -/
  | jsr (off : BitVec 9)
  /-- BR, condition jle (R89, R228). -/
  | jle (off : BitVec 9)
  /-- BR, condition ret; the offset field is ignored (R89, R229). -/
  | ret
  /-- TRAP: `user` is the flag U (R90, R250). -/
  | trap (user : Bool) (code : BitVec 8)
  /-- The table's last row: a word of the reserved opcode 15, with its low twelve bits kept because the
  report carries the whole word (R97, R260). -/
  | illegal (low : BitVec 12)
  deriving DecidableEq, Repr

/-- The fourteen addressing styles of the decoded record (30_encoding.md R101). -/
inductive Style where
  | aReg | aImm | shift | ldImm | ldBp | ldReg | ldMem | stReg | stImm | stBp
  | stack | frame | branch | trap
  deriving DecidableEq, Repr

/-- The one style that is active in a decoded instruction, none for a reserved word
(30_encoding.md R101, 10_state.md R35 (a)). -/
def Instr.style : Instr → Option Style
  | .addReg _ _ _ | .subReg _ _ _ | .andReg _ _ _ | .orReg _ _ _ | .cmpReg _ _ _ => some .aReg
  | .addImm _ _ | .subImm _ _ | .andImm _ _ | .orImm _ _ | .cmpImm _ _ => some .aImm
  | .shl _ _ | .ashr _ _ | .lshr _ _ | .not _ => some .shift
  | .ldImm _ _ => some .ldImm
  | .ldBp _ _ => some .ldBp
  | .ldReg _ _ => some .ldReg
  | .ldMem _ _ => some .ldMem
  | .stReg _ _ => some .stReg
  | .stImm _ _ => some .stImm
  | .stBp _ _ => some .stBp
  | .push _ | .pop _ => some .stack
  | .locs _ _ => some .frame
  | .jmp _ | .jgt _ | .jeq _ | .jge _ | .jlt _ | .jsr _ | .jle _ | .ret => some .branch
  | .trap _ _ => some .trap
  | .illegal _ => none

end Sys2Proof
end

