-- ==== Sys2Proof/WellFormed.lean ====
section
/-! DEFINITION. Which instructions are well-formed: the fields' types admit exactly the values the
encoding admits, so the one check left is that the instruction is one of the fifteen defined ones and
not a word of the reserved opcode 15, which has no canonical encoding (30_encoding.md R82, R96, R97). -/

namespace Sys2Proof

/-- The instruction is one the decoder's contract defines (30_encoding.md R96): not opcode 15. -/
def Instr.wf : Instr → Bool
  | .illegal _ => false
  | .addReg _ _ _ | .addImm _ _ | .subReg _ _ _ | .subImm _ _ | .andReg _ _ _ | .andImm _ _
  | .orReg _ _ _ | .orImm _ _ | .cmpReg _ _ _ | .cmpImm _ _ | .shl _ _ | .ashr _ _ | .lshr _ _
  | .not _ | .ldImm _ _ | .ldBp _ _ | .ldReg _ _ | .ldMem _ _ | .stReg _ _ | .stImm _ _ | .stBp _ _
  | .push _ | .pop _ | .locs _ _ | .jmp _ | .jgt _ | .jeq _ | .jge _ | .jlt _ | .jsr _ | .jle _
  | .ret | .trap _ _ => true

/-- Well-formedness as a decidable proposition. -/
abbrev Instr.WellFormed (i : Instr) : Prop := i.wf = true

end Sys2Proof
end

