-- ==== Sys2Proof/Decode.lean ====
section
/-! DEFINITION. The decided parameter values, the byte order of a word, the decoder, the encoder and the
opcode table's masks (30_encoding.md R80 to R102). Field positions stand in this file only. -/

namespace Sys2Proof

/-- The parameter values this spec decided (00_scope.md R7; log entries 7, 10, 15, 20). -/
def params : Config where
  opcNot := 7
  opcLocs := 11
  opcBr := 13
  opcTrap := 14
  trapUBit := 9
  ashrFallthrough := false
  spMax := 65534

/-! ### Byte order (20_memory.md R51) -/

/-- The 16-bit value of two bytes, the lower-addressed one giving bits 7 to 0. -/
def wordOfBytes (lo hi : Byte) : Word := hi ++ lo

/-- Bits 7 to 0, the byte at the lower address. -/
def loByte (w : Word) : Byte := w.extractLsb' 0 8

/-- Bits 15 to 8, the byte at the higher address. -/
def hiByte (w : Word) : Byte := w.extractLsb' 8 8

/-! ### Fields of an instruction word (30_encoding.md R82 to R94) -/

/-- `w[15:12]`, the opcode. -/
def fOpcode (w : Word) : BitVec 4 := w.extractLsb' 12 4

/-- `w[10:8]` as a register index. -/
def fRegHi (w : Word) : Reg := (w.extractLsb' 8 3).toFin

/-- `w[2:0]` as a register index. -/
def fRegLo (w : Word) : Reg := (w.extractLsb' 0 3).toFin

/-- `w[5:0]`: `imm6`, `off6` or the LOCS size. -/
def fSix (w : Word) : BitVec 6 := w.extractLsb' 0 6

/-- `w[3:0]`, the shift amount. -/
def fAmount (w : Word) : BitVec 4 := w.extractLsb' 0 4

/-- `w[7:0]`: the register mask or the trap code. -/
def fEight (w : Word) : BitVec 8 := w.extractLsb' 0 8

/-- `w[8:0]`, `off9`. -/
def fOff9 (w : Word) : BitVec 9 := w.extractLsb' 0 9

/-- `w[11:9]`, the condition of BR. -/
def fCond (w : Word) : BitVec 3 := w.extractLsb' 9 3

/-! ### The decoder -/

/-- Format A (R83): bit 11 chooses register or immediate mode. -/
def decodeArith (reg : Reg → Bool → Reg → Instr) (imm : Reg → BitVec 6 → Instr) (w : Word) : Instr :=
  if w.getLsbD 11 then reg (fRegHi w) (w.getLsbD 5) (fRegLo w) else imm (fRegHi w) (fSix w)

/-- Format L (R85): bits 11 and 6 choose the style of LD. -/
def decodeLd (w : Word) : Instr :=
  if w.getLsbD 11 then
    if w.getLsbD 6 then .ldMem (fRegHi w) (fRegLo w) else .ldReg (fRegHi w) (fRegLo w)
  else
    if w.getLsbD 6 then .ldBp (fRegHi w) (fSix w) else .ldImm (fRegHi w) (fSix w)

/-- Format T (R86): bits 11 and 6 choose the style of ST; bit 6 has the opposite sense to LD's. -/
def decodeSt (w : Word) : Instr :=
  if w.getLsbD 11 then .stReg (fRegHi w) (fRegLo w)
  else if w.getLsbD 6 then .stImm (fRegHi w) (fSix w) else .stBp (fRegHi w) (fSix w)

/-- Format K (R87): bit 8 chooses push or pop. -/
def decodeStack (w : Word) : Instr :=
  if w.getLsbD 8 then .push (fEight w) else .pop (fEight w)

/-- Format B (R89): the condition field, all eight values defined. -/
def decodeBr (w : Word) : Instr :=
  match (fCond w).toNat with
  | 0 => .jmp (fOff9 w)
  | 1 => .jgt (fOff9 w)
  | 2 => .jeq (fOff9 w)
  | 3 => .jge (fOff9 w)
  | 4 => .jlt (fOff9 w)
  | 5 => .jsr (fOff9 w)
  | 6 => .jle (fOff9 w)
  | _ => .ret

/-- The decoder, a pure and total function of the word (R96, R100); the opcode alone selects the
instruction (R82), bits of no field are not tested (R98). The four parameter opcodes come first, then the
eleven uncontested ones; what no opcode claims is the reserved row (R97). -/
def decodeWith (c : Config) (w : Word) : Instr :=
  if fOpcode w = c.opcNot then .not (fRegHi w)
  else if fOpcode w = c.opcLocs then .locs (w.getLsbD 8) (fSix w)
  else if fOpcode w = c.opcBr then decodeBr w
  else if fOpcode w = c.opcTrap then .trap (w.getLsbD c.trapUBit) (fEight w)
  else match (fOpcode w).toNat with
    | 0 => decodeArith .addReg .addImm w
    | 1 => decodeArith .subReg .subImm w
    | 2 => .shl (fRegHi w) (fAmount w)
    | 3 => .ashr (fRegHi w) (fAmount w)
    | 4 => .lshr (fRegHi w) (fAmount w)
    | 5 => decodeArith .andReg .andImm w
    | 6 => decodeArith .orReg .orImm w
    | 8 => decodeLd w
    | 9 => decodeSt w
    | 10 => decodeStack w
    | 12 => decodeArith .cmpReg .cmpImm w
    | _ => .illegal (w.extractLsb' 0 12)

/-- The decoder at the decided parameter values. -/
def decodeWord (w : Word) : Instr := decodeWith params w

/-- Why a list of bytes gives no instruction: only that it is too short, since every word decodes. -/
inductive DecodeError where
  /-- Fewer than the two bytes of an instruction word (R80). -/
  | truncated
  deriving DecidableEq, Repr

/-- An instruction read from the front of a byte list, low byte first, with the bytes left over
(30_encoding.md R80, R81). -/
def decodeBytes : List Byte → Except DecodeError (Instr × List Byte)
  | lo :: hi :: rest => .ok (decodeWord (wordOfBytes lo hi), rest)
  | _ => .error .truncated

/-- The instruction word of an opcode-table numbering: bit 0 is the least significant bit of the one
word, bits above `nbits` are 0. -/
def tableWord (nbits w : Nat) : Word := BitVec.ofNat 16 (w % 2 ^ nbits)

/-- What the decoder reads from an instruction whose bits are `w`, laid out as the hardware stores it. -/
def decodeTableWord (nbits w : Nat) : Option Instr :=
  match decodeBytes [loByte (tableWord nbits w), hiByte (tableWord nbits w)] with
  | .ok (i, _) => some i
  | .error _ => none

/-! ### The encoder (canonical words, 30_encoding.md R98, 95_test_vectors.md section 2.1) -/

/-- A register index as its 3-bit field. -/
def regBits (r : Reg) : BitVec 3 := BitVec.ofNat 3 r.val

/-- A-reg: opcode, 1, `d`, 00, `S`, 00, `s`. -/
def encArithReg (op : BitVec 4) (d : Reg) (sgn : Bool) (s : Reg) : Word :=
  op ++ 1#1 ++ regBits d ++ 0#2 ++ BitVec.ofBool sgn ++ 0#2 ++ regBits s

/-- A-imm: opcode, 0, `d`, 11, `imm6`. -/
def encArithImm (op : BitVec 4) (d : Reg) (imm : BitVec 6) : Word :=
  op ++ 0#1 ++ regBits d ++ 3#2 ++ imm

/-- S: opcode, 0, `d`, 0000, amount. -/
def encShift (op : BitVec 4) (d : Reg) (n : BitVec 4) : Word :=
  op ++ 0#1 ++ regBits d ++ 0#4 ++ n

/-- L and T with a six-bit field: opcode, 0, register, 0, `w[6]`, field. -/
def encSix (op : BitVec 4) (r : Reg) (bit6 : BitVec 1) (f : BitVec 6) : Word :=
  op ++ 0#1 ++ regBits r ++ 0#1 ++ bit6 ++ f

/-- L and T with two registers: opcode, 1, register, 0, `w[6]`, 000, register. -/
def encTwo (op : BitVec 4) (r : Reg) (bit6 : BitVec 1) (s : Reg) : Word :=
  op ++ 1#1 ++ regBits r ++ 0#1 ++ bit6 ++ 0#3 ++ regBits s

/-- K: 1010, 000, `P`, mask. -/
def encStack (p : BitVec 1) (m : BitVec 8) : Word := 10#4 ++ 0#3 ++ p ++ m

/-- F: opcode, 000, `A`, 00, size. -/
def encFrame (op : BitVec 4) (alloc : Bool) (n : BitVec 6) : Word :=
  op ++ 0#3 ++ BitVec.ofBool alloc ++ 0#2 ++ n

/-- B: opcode, condition, `off9`. -/
def encBr (op : BitVec 4) (cond : BitVec 3) (off : BitVec 9) : Word := op ++ cond ++ off

/-- P: opcode, `U` at its bit, code; the other bits 0. -/
def encTrap (op : BitVec 4) (ubit : Nat) (user : Bool) (code : BitVec 8) : Word :=
  (op ++ 0#4 ++ code) ||| (if user then 1#16 <<< ubit else 0#16)

/-- The canonical word of an instruction (30_encoding.md R98). A reserved word has no canonical form and
gives itself back. -/
def encodeWith (c : Config) : Instr → Word
  | .addReg d sgn s => encArithReg 0 d sgn s
  | .addImm d imm => encArithImm 0 d imm
  | .subReg d sgn s => encArithReg 1 d sgn s
  | .subImm d imm => encArithImm 1 d imm
  | .andReg d sgn s => encArithReg 5 d sgn s
  | .andImm d imm => encArithImm 5 d imm
  | .orReg d sgn s => encArithReg 6 d sgn s
  | .orImm d imm => encArithImm 6 d imm
  | .cmpReg d sgn s => encArithReg 12 d sgn s
  | .cmpImm d imm => encArithImm 12 d imm
  | .shl d n => encShift 2 d n
  | .ashr d n => encShift 3 d n
  | .lshr d n => encShift 4 d n
  | .not d => encShift c.opcNot d 15
  | .ldImm d imm => encSix 8 d 0 imm
  | .ldBp d off => encSix 8 d 1 off
  | .ldReg d s => encTwo 8 d 0 s
  | .ldMem d s => encTwo 8 d 1 s
  | .stReg a s => encTwo 9 a 0 s
  | .stImm a imm => encSix 9 a 1 imm
  | .stBp s off => encSix 9 s 0 off
  | .push m => encStack 1 m
  | .pop m => encStack 0 m
  | .locs alloc n => encFrame c.opcLocs alloc n
  | .jmp off => encBr c.opcBr 0 off
  | .jgt off => encBr c.opcBr 1 off
  | .jeq off => encBr c.opcBr 2 off
  | .jge off => encBr c.opcBr 3 off
  | .jlt off => encBr c.opcBr 4 off
  | .jsr off => encBr c.opcBr 5 off
  | .jle off => encBr c.opcBr 6 off
  | .ret => encBr c.opcBr 7 0
  | .trap user code => encTrap c.opcTrap c.trapUBit user code
  | .illegal low => 15#4 ++ low

/-- The encoder at the decided parameter values. -/
def encode (i : Instr) : Word := encodeWith params i

/-- The encoder's bytes as memory holds them, low byte first. -/
def encodeBytes (i : Instr) : List Byte := [loByte (encode i), hiByte (encode i)]

/-! ### The opcode table's masks (spec/opcode_table.json) -/

/-- A row of the opcode table: a word `w` selects it when `w &&& mask = value`; `ignored` are the bits
the decoder does not test (30_encoding.md, preamble). -/
structure TableRow where
  value : Word
  mask : Word
  ignored : Word
  deriving DecidableEq, Repr

/-- The row of the opcode table an instruction stands in, its numbers as the table prints them. -/
def tableRow : Instr → TableRow
  | .addReg _ _ _ => ⟨0x0800, 0xF800, 0x00D8⟩
  | .addImm _ _ => ⟨0x0000, 0xF800, 0x00C0⟩
  | .subReg _ _ _ => ⟨0x1800, 0xF800, 0x00D8⟩
  | .subImm _ _ => ⟨0x1000, 0xF800, 0x00C0⟩
  | .andReg _ _ _ => ⟨0x5800, 0xF800, 0x00D8⟩
  | .andImm _ _ => ⟨0x5000, 0xF800, 0x00C0⟩
  | .orReg _ _ _ => ⟨0x6800, 0xF800, 0x00D8⟩
  | .orImm _ _ => ⟨0x6000, 0xF800, 0x00C0⟩
  | .cmpReg _ _ _ => ⟨0xC800, 0xF800, 0x00D8⟩
  | .cmpImm _ _ => ⟨0xC000, 0xF800, 0x00C0⟩
  | .shl _ _ => ⟨0x2000, 0xF000, 0x08F0⟩
  | .ashr _ _ => ⟨0x3000, 0xF000, 0x08F0⟩
  | .lshr _ _ => ⟨0x4000, 0xF000, 0x08F0⟩
  | .not _ => ⟨0x7000, 0xF000, 0x08FF⟩
  | .ldImm _ _ => ⟨0x8000, 0xF840, 0x0080⟩
  | .ldBp _ _ => ⟨0x8040, 0xF840, 0x0080⟩
  | .ldReg _ _ => ⟨0x8800, 0xF840, 0x00B8⟩
  | .ldMem _ _ => ⟨0x8840, 0xF840, 0x00B8⟩
  | .stReg _ _ => ⟨0x9800, 0xF800, 0x00F8⟩
  | .stImm _ _ => ⟨0x9040, 0xF840, 0x0080⟩
  | .stBp _ _ => ⟨0x9000, 0xF840, 0x0080⟩
  | .push _ => ⟨0xA100, 0xF100, 0x0E00⟩
  | .pop _ => ⟨0xA000, 0xF100, 0x0E00⟩
  | .locs _ _ => ⟨0xB000, 0xF000, 0x0EC0⟩
  | .jmp _ => ⟨0xD000, 0xFE00, 0x0000⟩
  | .jgt _ => ⟨0xD200, 0xFE00, 0x0000⟩
  | .jeq _ => ⟨0xD400, 0xFE00, 0x0000⟩
  | .jge _ => ⟨0xD600, 0xFE00, 0x0000⟩
  | .jlt _ => ⟨0xD800, 0xFE00, 0x0000⟩
  | .jsr _ => ⟨0xDA00, 0xFE00, 0x0000⟩
  | .jle _ => ⟨0xDC00, 0xFE00, 0x0000⟩
  | .ret => ⟨0xDE00, 0xFE00, 0x01FF⟩
  | .trap _ _ => ⟨0xE000, 0xF000, 0x0D00⟩
  | .illegal _ => ⟨0xF000, 0xF000, 0x0FFF⟩

end Sys2Proof
end

