-- ==== Sys2Proof/Machine/State.lean ====
section
/-! DEFINITION. Every piece of state the spec gives the machine, as plain data (10_state.md R20 to R36),
the reasons a step can stop, and the state after reset. -/

namespace Sys2Proof.Machine

/-- The four condition flags (10_state.md R26, R28). -/
structure Flags where
  /-- Zero. -/
  z : Bool
  /-- Negative. -/
  n : Bool
  /-- Overflow. -/
  v : Bool
  /-- Carry. -/
  c : Bool
  deriving DecidableEq, Repr

/-- The six fatal conditions (60_exceptions.md R260). -/
inductive Condition where
  /-- A push past `SP_MAX` (R261). -/
  | stackOverflow
  /-- A pop below offset 0 (R262). -/
  | stackUnderflow
  /-- A base-pointer-relative access above `sp` (R263). -/
  | illegalAccess
  /-- A LOCS that leaves 0..`SP_MAX` (R264). -/
  | allocationOverflow
  /-- A word of opcode 15 (R265). -/
  | unknownOpcode
  /-- A 16-bit access to linear memory at 0xFFFF (R266). -/
  | memoryOutOfRange
  deriving DecidableEq, Repr

/-- What a fatal condition reports to the host (60_exceptions.md R267): the condition, the address of the
instruction that raised it, `sp` when the failing operation was attempted, and the value of R260's last
column, which may be negative or above 65535. -/
structure Report where
  condition : Condition
  pc : Word
  sp : Word
  value : Int
  deriving DecidableEq, Repr

/-- The run status (10_state.md R33). -/
inductive Status where
  /-- The only status in which a step happens. -/
  | running
  /-- A TRAP with code 0 has executed (40_execution_cycle.md R123). -/
  | halted
  /-- A fatal condition has ended the run; its report (R124, R267). -/
  | faulted (r : Report)
  deriving DecidableEq, Repr

/-- One event on the trap channel (46_trap.md R250). -/
structure TrapEvent where
  /-- The user/system flag `U`. -/
  user : Bool
  /-- The trap code. -/
  code : BitVec 8
  /-- The eight general registers, `x[0]` first, with code 1 only (R252). -/
  dump : Option (Vector Word 8)
  deriving DecidableEq, Repr

/-- A region of bytes, by address: strictly rising addresses, no entry equal to what an unlisted address
reads as (log entry 3). -/
abbrev Memory := List Host.Cell

/-- The whole machine (10_state.md, sections 1 to 7). -/
structure State where
  /-- The general registers `x[0]` to `x[7]` (R20). -/
  regs : Vector Word 8
  /-- The program counter (R22). -/
  pc : Word
  /-- The stack pointer, a byte offset into `stack` (R24). -/
  sp : Word
  /-- The base pointer, a byte offset into `stack` (R25). -/
  bp : Word
  /-- The flags (R26). -/
  flags : Flags
  /-- Linear memory, code and data (R29). -/
  mem : Memory
  /-- The stack region (R30). -/
  stack : Memory
  /-- The run status (R33). -/
  status : Status
  /-- The trap channel, oldest event first (R34). -/
  traps : List TrapEvent
  deriving DecidableEq, Repr

/-- Why a step stops without a next state. A fatal condition of the spec is none of these: it is a next
state whose status is `faulted` (log entry 4). -/
inductive Fault where
  /-- Raised by `step` when the run has halted: no further step happens (40_execution_cycle.md R123).
  Safe: it is a stop where the machine has no step. -/
  | runHalted
  /-- Raised by `step` when a fatal condition has ended the run (R124), with its report.
  Safe: it is a stop where the machine has no step. -/
  | runFaulted (r : Report)
  /-- Raised by LD-bp and ST-bp when the 16-bit access would need the byte at stack offset 65536, which
  does not exist; only a host-supplied `sp` of 65535 leads here (R54, 93_implementation_defined.md V7,
  log entry 6). Safe: it is a stop where the spec has no access. -/
  | stackOffsetOutsideRegion (offset : Nat)
  deriving DecidableEq, Repr

/-- Why an instruction has no meaning. No instruction of this core is refused. -/
inductive Refusal where
  /-- Answered by an arm of `exec` for an instruction not modelled yet; no arm answers it now.
  Safe: it is a stop. -/
  | notModelled (mnemonic : String)
  deriving DecidableEq, Repr

/-- The state at the start of a run whose host supplies nothing (10_state.md R36, R300): everything zero,
status `Running`, the trap channel empty. `pc` is the host's START_ADDRESS, 0 here
(DESIGN CHOICE, unsafe, log entry 1). -/
def State.reset : State where
  regs := Vector.replicate 8 0
  pc := 0
  sp := 0
  bp := 0
  flags := ⟨false, false, false, false⟩
  mem := []
  stack := []
  status := .running
  traps := []

end Sys2Proof.Machine
end

