-- ==== Sys2Proof/Machine/Flags.lean ====
section
/-! DEFINITION. The arithmetic/flag unit, the shifter and the branch conditions (41_alu.md R140, R141;
42_shift_not.md R161 to R164; 45_branch.md R221), computed exactly on integers and narrowed at the end. -/

namespace Sys2Proof.Machine

/-- `flags` as the byte a host may ask for: Z bit 0, N bit 1, V bit 2, C bit 3 (10_state.md R28). -/
def Flags.toByte (f : Flags) : Byte :=
  0#4 ++ BitVec.ofBool f.c ++ BitVec.ofBool f.v ++ BitVec.ofBool f.n ++ BitVec.ofBool f.z

/-- `add16(a, b)`: the sum modulo 65536 and all four flags (R140). -/
def add16 (a b : Word) : Word × Flags :=
  let s := a.toNat + b.toNat
  let r : Word := BitVec.ofNat 16 s
  (r, { z := decide (r = 0)
        n := r.getLsbD 15
        v := decide (a.getLsbD 15 = b.getLsbD 15 ∧ r.getLsbD 15 ≠ a.getLsbD 15)
        c := decide (s > 0xFFFF) })

/-- `neg16(v)`, the two's-complement negation on 16 bits (R141). -/
def neg16 (v : Word) : Word := BitVec.ofNat 16 (65536 - v.toNat)

/-- SHL: the shifted value, never losing a bit before it is narrowed, and all four flags with V cleared
and C from bit 16 of the wide value (R162). -/
def shl16 (v : Word) (n : BitVec 4) : Word × Flags :=
  let t := v.toNat <<< n.toNat
  let r : Word := BitVec.ofNat 16 t
  (r, { z := decide (r = 0), n := r.getLsbD 15, v := false, c := t.testBit 16 })

/-- `ashr16(v, n)`: the floor of the signed value over `2 ^ n`, modulo 65536 (R163). -/
def ashr16 (v : Word) (n : BitVec 4) : Word := BitVec.ofInt 16 (v.toInt / (2 ^ n.toNat : Nat))

/-- `lshr16(v, n)`: zeros shifted in at the top (R163, R164). -/
def lshr16 (v : Word) (n : BitVec 4) : Word := BitVec.ofNat 16 (v.toNat >>> n.toNat)

/-- ASHR's result under either setting of `ASHR_FALLTHROUGH` (R163). -/
def ashrResult (fallthrough : Bool) (v : Word) (n : BitVec 4) : Word :=
  if fallthrough then lshr16 (ashr16 v n) n else ashr16 v n

/-- `lt = N ⊕ V` (45_branch.md R221). -/
def Flags.lt (f : Flags) : Bool := f.n != f.v

/-- Condition jgt: `¬Z ∧ ¬(N ⊕ V)` (R221). -/
def Flags.jgt (f : Flags) : Bool := !f.z && !f.lt

/-- Condition jeq: `Z` (R221). -/
def Flags.jeq (f : Flags) : Bool := f.z

/-- Condition jge: `¬(N ⊕ V)` (R221). -/
def Flags.jge (f : Flags) : Bool := !f.lt

/-- Condition jlt: `N ⊕ V` (R221). -/
def Flags.jlt (f : Flags) : Bool := f.lt

/-- Condition jle: `Z ∨ (N ⊕ V)` (R221). -/
def Flags.jle (f : Flags) : Bool := f.z || f.lt

/-- The number of a fatal condition for a host that wants integers (60_exceptions.md R260, D21). -/
def Condition.code : Condition → Nat
  | .stackOverflow => 1
  | .stackUnderflow => 2
  | .illegalAccess => 3
  | .allocationOverflow => 4
  | .unknownOpcode => 5
  | .memoryOutOfRange => 6

end Sys2Proof.Machine
end

