-- ==== Sys2Proof/Machine/Operands.lean ====
section
/-! DEFINITION. Every operand form the spec gives (30_encoding.md R91 to R95, 43_load_store.md R180,
44_stack.md R202, R203, 45_branch.md R220) and the accessors of the general registers. -/

namespace Sys2Proof.Machine

/-- `x[r]` (10_state.md R20). -/
def State.reg (s : State) (r : Reg) : Word := s.regs[r.val]

/-- A six-bit immediate, zero-extended (R91). -/
def zext6 (imm : BitVec 6) : Word := imm.setWidth 16

/-- A branch offset as a mathematical integer, −256 to 255 (R93). -/
def sext9 (off : BitVec 9) : Int :=
  if off.toNat < 256 then (off.toNat : Int) else (off.toNat : Int) - 512

/-- The target of a taken branch at `pc`: its own address plus twice the offset, modulo 65536 (R220). -/
def branchTarget (pc : Word) (off : BitVec 9) : Word := BitVec.ofInt 16 ((pc.toNat : Int) + 2 * sext9 off)

/-- The effective stack offset of a base-pointer-relative access, unbounded (R92, R180). -/
def bpOffset (bp : Word) (off : BitVec 6) : Nat := bp.toNat + 2 * off.toNat

/-- The byte count of a LOCS, twice its size in words (R204). -/
def locsBytes (n : BitVec 6) : Nat := 2 * n.toNat

/-- The registers of a STACK mask in ascending order (R87, R202, R203). -/
def maskRegs (m : BitVec 8) : List Reg := (List.finRange 8).filter fun i => m.getLsbD i.val

end Sys2Proof.Machine
end

