-- ==== Sys2Proof/Machine/Ops.lean ====
section
/-! DEFINITION. The named operations over registers, memory, stack and run status that every meaning is
built from: the pseudocode primitives of 00_scope.md R10. -/

namespace Sys2Proof.Machine

/-! ### State updates, one per field -/

/-- `x[r] <- v` (10_state.md R20). -/
def State.setReg (s : State) (r : Reg) (v : Word) : State := { s with regs := s.regs.set r.val v }

/-- `pc <- t` (R22). -/
def State.setPc (s : State) (t : Word) : State := { s with pc := t }

/-- `sp <- v` (R24). -/
def State.setSp (s : State) (v : Word) : State := { s with sp := v }

/-- `bp <- v` (R25). -/
def State.setBp (s : State) (v : Word) : State := { s with bp := v }

/-- `flags <- f`, all four at once (R26). -/
def State.setFlags (s : State) (f : Flags) : State := { s with flags := f }

/-- Replaces linear memory. -/
def State.setMem (s : State) (m : Memory) : State := { s with mem := m }

/-- Replaces the stack region. -/
def State.setStack (s : State) (m : Memory) : State := { s with stack := m }

/-- Sets the run status (R33). -/
def State.setStatus (s : State) (st : Status) : State := { s with status := st }

/-- Appends one event to the trap channel (R34). -/
def State.emit (s : State) (e : TrapEvent) : State := { s with traps := s.traps ++ [e] }

/-- `pc <- (pc + 2) mod 65536`, the driver's advance (40_execution_cycle.md R121). -/
def State.advance (s : State) : State := s.setPc (s.pc + 2)

/-! ### Bytes of a region -/

/-- What an address nothing has written reads as (10_state.md R36; DESIGN CHOICE, unsafe, log entry 3). -/
def unlistedByte : Byte := 0

/-- The byte at an address. -/
def Memory.read : Memory → Nat → Byte
  | [], _ => unlistedByte
  | (k, v) :: rest, a => if a = k then v else Memory.read rest a

/-- A cell as a list, empty when its byte is what an unlisted address reads as. -/
def Memory.cell (a : Nat) (b : Byte) : Memory := if b = unlistedByte then [] else [(a, b)]

/-- Stores one byte, keeping the canonical form: addresses strictly rise and no entry reads as an
unlisted address does. -/
def Memory.write : Memory → Nat → Byte → Memory
  | [], a, b => Memory.cell a b
  | (k, v) :: rest, a, b =>
    if a < k then Memory.cell a b ++ (k, v) :: rest
    else if a = k then Memory.cell a b ++ rest
    else (k, v) :: Memory.write rest a b

/-- The addresses of a memory list rise strictly from above `lo`, stay inside the region and hold no
byte an unlisted address would read as. -/
def Memory.wfFrom : Memory → Nat → Bool
  | [], _ => true
  | (k, v) :: rest, lo => decide (lo ≤ k) && decide (k < 65536) && decide (v ≠ unlistedByte) && Memory.wfFrom rest (k + 1)

/-- The canonical form of a 65536-byte region. -/
def Memory.wf (m : Memory) : Bool := Memory.wfFrom m 0

/-- The 16-bit value at `a`: the byte at `a` is bits 7 to 0 (20_memory.md R51, R52). -/
def Memory.readWord (m : Memory) (a : Nat) : Word := wordOfBytes (m.read a) (m.read (a + 1))

/-- Stores a 16-bit value at `a`, low byte first (R51, R53, R54). -/
def Memory.writeWord (m : Memory) (a : Nat) (v : Word) : Memory :=
  (m.write a (loByte v)).write (a + 1) (hiByte v)

/-! ### Results of an operation

An operation inside an instruction goes on with a value and a state, or ends the run with a fatal
condition, keeping what the instruction did before (40_execution_cycle.md R126), or meets a stop of
the model. -/

/-- The result of an operation. -/
inductive Res (α : Type) where
  /-- The operation is complete; its value and the state after it. -/
  | ok (a : α) (s : State)
  /-- A fatal condition has ended the run in this state, whose status is `faulted`. -/
  | ended (s : State)
  /-- The model stops. -/
  | fault (f : Fault)

/-- Runs the rest of an instruction after an operation, unless the operation ended the run. -/
def Res.bind {α β : Type} (r : Res α) (k : α → State → Res β) : Res β :=
  match r with
  | .ok a s => k a s
  | .ended s => .ended s
  | .fault f => .fault f

/-- An instruction that answers Continue: the driver advances `pc` (R121, R122). -/
def Res.andAdvance (r : Res Unit) : Host.Outcome State Fault Refusal :=
  match r with
  | .ok _ s => .next s.advance
  | .ended s => .next s
  | .fault f => .fault f

/-- An instruction that answers Override: `pc` becomes the value, with no advance (R121, R122). -/
def Res.andJump (r : Res Word) : Host.Outcome State Fault Refusal :=
  match r with
  | .ok t s => .next (s.setPc t)
  | .ended s => .next s
  | .fault f => .fault f

/-! ### Taking a fatal condition

The one shared operation by which the machine takes an exception. The core saves nothing, has no
handler and no vector, and there is no return from a fatal condition (60_exceptions.md R269, R270), so
nothing stands beside it: the run ends, the report is made, `pc` and all else stay (R267, R268). -/

/-- `raise c(value)`: the run status becomes `Faulted` with the report (R124, R267). -/
def State.raise (s : State) (c : Condition) (value : Int) : State :=
  s.setStatus (.faulted { condition := c, pc := s.pc, sp := s.sp, value := value })

/-- `halt`: the run ends normally, `pc` unchanged (40_execution_cycle.md R123). -/
def State.halt (s : State) : State := s.setStatus .halted

/-! ### The access primitives (20_memory.md R53, R54) -/

/-- `MemRead(addr, 2)`: fatal at 0xFFFF (R53). -/
def memRead (addr : Word) (s : State) : Res Word :=
  if addr = 0xFFFF then .ended (s.raise .memoryOutOfRange addr.toNat)
  else .ok (s.mem.readWord addr.toNat) s

/-- `MemWrite(addr, 2, v)`: fatal at 0xFFFF, with nothing written (R53). -/
def memWrite (addr v : Word) (s : State) : Res Unit :=
  if addr = 0xFFFF then .ended (s.raise .memoryOutOfRange addr.toNat)
  else .ok () (s.setMem (s.mem.writeWord addr.toNat v))

/-- `StackRead(addr, 2)`: the callers' checks keep `addr` at most 65534 (R54); beyond that the second
byte does not exist (DEDUCED, safe, log entry 6). -/
def stackRead (addr : Nat) (s : State) : Res Word :=
  if addr < 65535 then .ok (s.stack.readWord addr) s else .fault (.stackOffsetOutsideRegion addr)

/-- `StackWrite(addr, 2, v)` (R54). -/
def stackWrite (addr : Nat) (v : Word) (s : State) : Res Unit :=
  if addr < 65535 then .ok () (s.setStack (s.stack.writeWord addr v))
  else .fault (.stackOffsetOutsideRegion addr)

/-- Fetches the instruction word at `pc` (30_encoding.md R81, 40_execution_cycle.md R121). -/
def fetch (s : State) : Res Word := memRead s.pc s

/-! ### The stack controller (44_stack.md R200, R201, 43_load_store.md R180) -/

/-- `push(v)` (R200). -/
def push (v : Word) (s : State) : Res Unit :=
  if s.sp.toNat + 2 > params.spMax then .ended (s.raise .stackOverflow (s.sp.toNat + 2))
  else (stackWrite s.sp.toNat v s).bind fun _ s => .ok () (s.setSp (s.sp + 2))

/-- `pop()`: the slot keeps its bytes (R201). -/
def pop (s : State) : Res Word :=
  if s.sp.toNat < 2 then .ended (s.raise .stackUnderflow ((s.sp.toNat : Int) - 2))
  else stackRead (s.sp.toNat - 2) (s.setSp (s.sp - 2))

/-- Pushes the registers of a list, first to last (R202). -/
def pushAll : List Reg → State → Res Unit
  | [], s => .ok () s
  | r :: rs, s => (push (s.reg r) s).bind fun _ s => pushAll rs s

/-- Pops into the registers of a list, first to last (R203). -/
def popAll : List Reg → State → Res Unit
  | [], s => .ok () s
  | r :: rs, s => (pop s).bind fun v s => popAll rs (s.setReg r v)

/-- `bp_ea(off6)`: the offset of a base-pointer-relative access, refused above `sp` (R180). -/
def bpEa (off : BitVec 6) (s : State) : Res Nat :=
  if bpOffset s.bp off > s.sp.toNat then .ended (s.raise .illegalAccess (bpOffset s.bp off))
  else .ok (bpOffset s.bp off) s

/-! ### The host's interface (70_reset_and_hazards.md R301 to R303) -/

/-- The host's load before a run: bytes written to linear memory from an address up; bytes past 0xFFFF
have no place and are dropped (R302). -/
def State.loadBytes (s : State) (base : Nat) : List Byte → State
  | [] => s
  | b :: bs => if base < 65536 then (s.setMem (s.mem.write base b)).loadBytes (base + 1) bs else s

/-- The start of a run: `pc <- START_ADDRESS`, status and trap channel afresh, nothing else cleared
(40_execution_cycle.md R127, 70_reset_and_hazards.md R301). -/
def State.startRun (init : State) (startAddress : Word) : State :=
  { init with pc := startAddress, status := .running, traps := [] }

end Sys2Proof.Machine
end

