-- ==== Sys2Proof/Machine/Arith.lean ====
section
/-! DEFINITION. The meanings of ADD, SUB, AND, OR and CMP in both modes (41_alu.md R142 to R149). The flag
`S` of register mode has no effect (30_encoding.md R95). -/

namespace Sys2Proof.Machine

/-! ### Shared bodies over the second operand `op2` (R142) -/

/-- `x[d] <- add16(op2, x[d])` (R143). -/
def addBody (d : Reg) (op2 : Word) (s : State) : Res Unit :=
  .ok () ((s.setReg d (add16 op2 (s.reg d)).1).setFlags (add16 op2 (s.reg d)).2)

/-- `x[d] <- add16(neg16(op2), x[d])` (R144). -/
def subBody (d : Reg) (op2 : Word) (s : State) : Res Unit := addBody d (neg16 op2) s

/-- `add16(neg16(op2), x[d])`, the result discarded (R145). -/
def cmpBody (d : Reg) (op2 : Word) (s : State) : Res Unit :=
  .ok () (s.setFlags (add16 (neg16 op2) (s.reg d)).2)

/-- `x[d] <- x[d] & op2`, flags unchanged (R146). -/
def andBody (d : Reg) (op2 : Word) (s : State) : Res Unit := .ok () (s.setReg d (s.reg d &&& op2))

/-- `x[d] <- x[d] | op2`, flags unchanged (R147). -/
def orBody (d : Reg) (op2 : Word) (s : State) : Res Unit := .ok () (s.setReg d (s.reg d ||| op2))

/-! ### The instructions -/

/-- ADD in register mode: `op2 = x[src]` (R143). -/
def execAddReg (d : Reg) (_sgn : Bool) (src : Reg) (s : State) : Host.Outcome State Fault Refusal :=
  (addBody d (s.reg src) s).andAdvance

/-- ADD in immediate mode: `op2 = zext_6(imm6)` (R143). -/
def execAddImm (d : Reg) (imm : BitVec 6) (s : State) : Host.Outcome State Fault Refusal :=
  (addBody d (zext6 imm) s).andAdvance

/-- SUB in register mode: `op2 = x[src]` (R144). -/
def execSubReg (d : Reg) (_sgn : Bool) (src : Reg) (s : State) : Host.Outcome State Fault Refusal :=
  (subBody d (s.reg src) s).andAdvance

/-- SUB in immediate mode: `op2 = zext_6(imm6)` (R144). -/
def execSubImm (d : Reg) (imm : BitVec 6) (s : State) : Host.Outcome State Fault Refusal :=
  (subBody d (zext6 imm) s).andAdvance

/-- AND in register mode: `op2 = x[src]` (R146). -/
def execAndReg (d : Reg) (_sgn : Bool) (src : Reg) (s : State) : Host.Outcome State Fault Refusal :=
  (andBody d (s.reg src) s).andAdvance

/-- AND in immediate mode: `op2 = zext_6(imm6)` (R146). -/
def execAndImm (d : Reg) (imm : BitVec 6) (s : State) : Host.Outcome State Fault Refusal :=
  (andBody d (zext6 imm) s).andAdvance

/-- OR in register mode: `op2 = x[src]` (R147). -/
def execOrReg (d : Reg) (_sgn : Bool) (src : Reg) (s : State) : Host.Outcome State Fault Refusal :=
  (orBody d (s.reg src) s).andAdvance

/-- OR in immediate mode: `op2 = zext_6(imm6)` (R147). -/
def execOrImm (d : Reg) (imm : BitVec 6) (s : State) : Host.Outcome State Fault Refusal :=
  (orBody d (zext6 imm) s).andAdvance

/-- CMP in register mode: `op2 = x[src]` (R145). -/
def execCmpReg (d : Reg) (_sgn : Bool) (src : Reg) (s : State) : Host.Outcome State Fault Refusal :=
  (cmpBody d (s.reg src) s).andAdvance

/-- CMP in immediate mode: `op2 = zext_6(imm6)` (R145). -/
def execCmpImm (d : Reg) (imm : BitVec 6) (s : State) : Host.Outcome State Fault Refusal :=
  (cmpBody d (zext6 imm) s).andAdvance

end Sys2Proof.Machine
end

