-- ==== Sys2Proof/Machine/Branch.lean ====
section
/-! DEFINITION. The meanings of BR in its eight conditions (45_branch.md R220 to R232). No instruction here
writes a flag or touches linear memory. -/

namespace Sys2Proof.Machine

/-- A jump taken when `cond` holds: the target (R220), else `pc + 2` (R232). -/
def branchIf (cond : Bool) (off : BitVec 9) (s : State) : Host.Outcome State Fault Refusal :=
  if cond then (Res.ok (branchTarget s.pc off) s).andJump else (Res.ok () s).andAdvance

/-- JMP: always taken (R222). -/
def execJmp (off : BitVec 9) (s : State) : Host.Outcome State Fault Refusal := branchIf true off s

/-- JGT: taken when `Z = 0` and `N ⊕ V = 0` (R223). -/
def execJgt (off : BitVec 9) (s : State) : Host.Outcome State Fault Refusal := branchIf s.flags.jgt off s

/-- JEQ: taken when `Z = 1` (R224). -/
def execJeq (off : BitVec 9) (s : State) : Host.Outcome State Fault Refusal := branchIf s.flags.jeq off s

/-- JGE: taken when `N ⊕ V = 0` (R225). -/
def execJge (off : BitVec 9) (s : State) : Host.Outcome State Fault Refusal := branchIf s.flags.jge off s

/-- JLT: taken when `N ⊕ V = 1` (R226). -/
def execJlt (off : BitVec 9) (s : State) : Host.Outcome State Fault Refusal := branchIf s.flags.jlt off s

/-- JLE: taken when `Z = 1` or `N ⊕ V = 1` (R228). -/
def execJle (off : BitVec 9) (s : State) : Host.Outcome State Fault Refusal := branchIf s.flags.jle off s

/-- JSR: pushes the return address, then `bp`; the new frame starts above them (R227). The pushed `bp` is
plain stack data, which POP or LD-bp may load into a register, although R188 says that a program cannot
learn `sp` or `bp`: the operations are followed (DEDUCED, unsafe, log entry 35). -/
def execJsr (off : BitVec 9) (s : State) : Host.Outcome State Fault Refusal :=
  ((push (s.pc + 2) s).bind fun _ s => (push s.bp s).bind fun _ s =>
    .ok (branchTarget s.pc off) (s.setBp s.sp)).andJump

/-- RET: `sp <- bp`, then `bp` and `pc` popped, the popped `pc` as it is (R229). -/
def execRet (s : State) : Host.Outcome State Fault Refusal :=
  ((pop (s.setSp s.bp)).bind fun oldBp s => pop (s.setBp oldBp)).andJump

end Sys2Proof.Machine
end

