-- ==== Sys2Proof/Machine/LoadStore.lean ====
section
/-! DEFINITION. The meanings of LD in its four styles and ST in its three (43_load_store.md R180 to R189).
No instruction here reads or writes a flag. -/

namespace Sys2Proof.Machine

/-- LD-imm: `x[d] <- zext_6(imm6)` (R181). -/
def execLdImm (d : Reg) (imm : BitVec 6) (s : State) : Host.Outcome State Fault Refusal :=
  (Res.ok () (s.setReg d (zext6 imm))).andAdvance

/-- LD-bp: the stack slot at `bp + 2 × off6` (R184). -/
def execLdBp (d : Reg) (off : BitVec 6) (s : State) : Host.Outcome State Fault Refusal :=
  ((bpEa off s).bind fun ea s => (stackRead ea s).bind fun v s => .ok () (s.setReg d v)).andAdvance

/-- LD-reg: the register copy (R182). -/
def execLdReg (d : Reg) (src : Reg) (s : State) : Host.Outcome State Fault Refusal :=
  (Res.ok () (s.setReg d (s.reg src))).andAdvance

/-- LD-mem: the 16-bit value in linear memory at `x[src]` (R183). -/
def execLdMem (d : Reg) (src : Reg) (s : State) : Host.Outcome State Fault Refusal :=
  ((memRead (s.reg src) s).bind fun v s => .ok () (s.setReg d v)).andAdvance

/-- ST-reg: `x[src]` to linear memory at `x[a]` (R185). -/
def execStReg (a : Reg) (src : Reg) (s : State) : Host.Outcome State Fault Refusal :=
  (memWrite (s.reg a) (s.reg src) s).andAdvance

/-- ST-imm: `zext_6(imm6)` to linear memory at `x[a]`, both bytes (R186). -/
def execStImm (a : Reg) (imm : BitVec 6) (s : State) : Host.Outcome State Fault Refusal :=
  (memWrite (s.reg a) (zext6 imm) s).andAdvance

/-- ST-bp: `x[src]` to the stack slot at `bp + 2 × off6` (R187). -/
def execStBp (src : Reg) (off : BitVec 6) (s : State) : Host.Outcome State Fault Refusal :=
  ((bpEa off s).bind fun ea s => stackWrite ea (s.reg src) s).andAdvance

end Sys2Proof.Machine
end

