-- ==== Sys2Proof/Machine/Shift.lean ====
section
/-! DEFINITION. The meanings of NOT, SHL, ASHR and LSHR (42_shift_not.md R160 to R165). Only SHL writes
the flags. -/

namespace Sys2Proof.Machine

/-- SHL: `x[d] << n` and all four flags (R162). -/
def execShl (d : Reg) (n : BitVec 4) (s : State) : Host.Outcome State Fault Refusal :=
  (Res.ok () ((s.setReg d (shl16 (s.reg d) n).1).setFlags (shl16 (s.reg d) n).2)).andAdvance

/-- ASHR: the arithmetic right shift under the parameter `ASHR_FALLTHROUGH` (R163). -/
def execAshr (d : Reg) (n : BitVec 4) (s : State) : Host.Outcome State Fault Refusal :=
  (Res.ok () (s.setReg d (ashrResult params.ashrFallthrough (s.reg d) n))).andAdvance

/-- LSHR: the logical right shift (R164). -/
def execLshr (d : Reg) (n : BitVec 4) (s : State) : Host.Outcome State Fault Refusal :=
  (Res.ok () (s.setReg d (lshr16 (s.reg d) n))).andAdvance

/-- NOT: each of the sixteen bits inverted (R161). -/
def execNot (d : Reg) (s : State) : Host.Outcome State Fault Refusal :=
  (Res.ok () (s.setReg d (~~~ s.reg d))).andAdvance

end Sys2Proof.Machine
end

