-- ==== Sys2Proof/Machine/Stack.lean ====
section
/-! DEFINITION. The meanings of STACK (PUSH, POP) and LOCS (44_stack.md R202 to R207). -/

namespace Sys2Proof.Machine

/-- PUSH: the registers of the mask, lowest index first; the empty mask pushes nothing (R202). -/
def execPush (m : BitVec 8) (s : State) : Host.Outcome State Fault Refusal := (pushAll (maskRegs m) s).andAdvance

/-- POP: into the registers of the mask, lowest index first; the empty mask discards one value (R203). -/
def execPop (m : BitVec 8) (s : State) : Host.Outcome State Fault Refusal :=
  if m = 0 then ((pop s).bind fun _ s => .ok () s).andAdvance
  else (popAll (maskRegs m) s).andAdvance

/-- `sp` moved up by `k` bytes, refused past `SP_MAX` (R204). -/
def allocate (k : Nat) (s : State) : Res Unit :=
  if s.sp.toNat + k > params.spMax then .ended (s.raise .allocationOverflow (s.sp.toNat + k))
  else .ok () (s.setSp (s.sp + BitVec.ofNat 16 k))

/-- `sp` moved down by `k` bytes, refused below 0 (R204). -/
def deallocate (k : Nat) (s : State) : Res Unit :=
  if (s.sp.toNat : Int) - k < 0 then .ended (s.raise .allocationOverflow ((s.sp.toNat : Int) - k))
  else .ok () (s.setSp (s.sp - BitVec.ofNat 16 k))

/-- LOCS: `sp` moves by twice the size, up or down (R204). -/
def execLocs (alloc : Bool) (n : BitVec 6) (s : State) : Host.Outcome State Fault Refusal :=
  (if alloc then allocate (locsBytes n) s else deallocate (locsBytes n) s).andAdvance

end Sys2Proof.Machine
end

