-- ==== Sys2Proof/Machine/Trap.lean ====
section
/-! DEFINITION. The meanings of TRAP (46_trap.md R250 to R255) and of a word of the reserved opcode 15
(30_encoding.md R97). -/

namespace Sys2Proof.Machine

/-- The event a TRAP emits: code 1 carries the eight registers, every other code carries none
(R250, R252, R253). -/
def trapEvent (user : Bool) (code : BitVec 8) (s : State) : TrapEvent :=
  { user := user, code := code, dump := if code = 1 then some s.regs else none }

/-- TRAP: emits its event, then halts on code 0 and goes on otherwise, whatever `U` is (R250, R251). -/
def execTrap (user : Bool) (code : BitVec 8) (s : State) : Host.Outcome State Fault Refusal :=
  if code = 0 then (Res.ended ((s.emit (trapEvent user code s)).halt) : Res Unit).andAdvance
  else (Res.ok () (s.emit (trapEvent user code s))).andAdvance

/-- A word of opcode 15: `UnknownOpcode` with the word, and no other effect (R97, R265). -/
def execIllegal (low : BitVec 12) (s : State) : Host.Outcome State Fault Refusal :=
  (Res.ended (s.raise .unknownOpcode (encode (.illegal low)).toNat) : Res Unit).andAdvance

end Sys2Proof.Machine
end

