-- ==== Sys2Proof/Machine/Dispatch.lean ====
section
/-! DEFINITION. One instruction's execution, an arm per constructor (40_execution_cycle.md R121, R122). -/

namespace Sys2Proof.Machine

def exec (i : Instr) (s : State) : Host.Outcome State Fault Refusal :=
  match i with
  | .addReg d sgn src => Sys2Proof.Machine.execAddReg d sgn src s
  | .addImm d imm => Sys2Proof.Machine.execAddImm d imm s
  | .subReg d sgn src => Sys2Proof.Machine.execSubReg d sgn src s
  | .subImm d imm => Sys2Proof.Machine.execSubImm d imm s
  | .andReg d sgn src => Sys2Proof.Machine.execAndReg d sgn src s
  | .andImm d imm => Sys2Proof.Machine.execAndImm d imm s
  | .orReg d sgn src => Sys2Proof.Machine.execOrReg d sgn src s
  | .orImm d imm => Sys2Proof.Machine.execOrImm d imm s
  | .cmpReg d sgn src => Sys2Proof.Machine.execCmpReg d sgn src s
  | .cmpImm d imm => Sys2Proof.Machine.execCmpImm d imm s
  | .shl d n => Sys2Proof.Machine.execShl d n s
  | .ashr d n => Sys2Proof.Machine.execAshr d n s
  | .lshr d n => Sys2Proof.Machine.execLshr d n s
  | .not d => Sys2Proof.Machine.execNot d s
  | .ldImm d imm => Sys2Proof.Machine.execLdImm d imm s
  | .ldBp d off => Sys2Proof.Machine.execLdBp d off s
  | .ldReg d src => Sys2Proof.Machine.execLdReg d src s
  | .ldMem d src => Sys2Proof.Machine.execLdMem d src s
  | .stReg a src => Sys2Proof.Machine.execStReg a src s
  | .stImm a imm => Sys2Proof.Machine.execStImm a imm s
  | .stBp src off => Sys2Proof.Machine.execStBp src off s
  | .push mask => Sys2Proof.Machine.execPush mask s
  | .pop mask => Sys2Proof.Machine.execPop mask s
  | .locs alloc n => Sys2Proof.Machine.execLocs alloc n s
  | .jmp off => Sys2Proof.Machine.execJmp off s
  | .jgt off => Sys2Proof.Machine.execJgt off s
  | .jeq off => Sys2Proof.Machine.execJeq off s
  | .jge off => Sys2Proof.Machine.execJge off s
  | .jlt off => Sys2Proof.Machine.execJlt off s
  | .jsr off => Sys2Proof.Machine.execJsr off s
  | .jle off => Sys2Proof.Machine.execJle off s
  | .ret => Sys2Proof.Machine.execRet s
  | .trap user code => Sys2Proof.Machine.execTrap user code s
  | .illegal low => Sys2Proof.Machine.execIllegal low s

end Sys2Proof.Machine
end

