-- ==== Sys2Proof/Machine/Step.lean ====
section
/-! DEFINITION. One step of the machine: fetch, decode, execute (40_execution_cycle.md R121), and the
placing of one instruction where the next step fetches. -/

namespace Sys2Proof.Machine

/-- One step. `Running` is the only status in which a step happens (10_state.md R33). -/
def step (s : State) : Host.Outcome State Fault Refusal :=
  match s.status with
  | .halted => .fault .runHalted
  | .faulted r => .fault (.runFaulted r)
  | .running =>
    match fetch s with
    | .ok w t => exec (decodeWord w) t
    | .ended t => .next t
    | .fault f => .fault f

/-- `s` with an instruction placed where the next step fetches it: at `pc`, in a run that is going on. A
`pc` of 0xFFFF, where no instruction fits, moves to 0 (DESIGN CHOICE, safe, log entry 28). -/
def State.withFetchWord (s : State) (nbits w : Nat) : State :=
  let at' : Word := if s.pc = 0xFFFF then 0 else s.pc
  ((s.setPc at').setStatus .running).setMem (s.mem.writeWord at'.toNat (tableWord nbits w))

end Sys2Proof.Machine
end

