-- ==== Sys2Proof/Safety.lean ====
section
/-! DEFINITION. What counts as a proper start, an end and a safe run, in the terms the statements use
(10_state.md R35, 70_reset_and_hazards.md R302, R308), the step invariant of the model, and the kinds of
instruction the statements name. -/

namespace Sys2Proof.Machine

/-- The machine state invariant: both regions are in canonical form, and while the run goes on `sp` is
within 0..65534 (10_state.md R24, R35 (b)). -/
def State.Inv (s : State) : Prop :=
  s.mem.wf = true ∧ s.stack.wf = true ∧ (s.status = .running → s.sp.toNat ≤ params.spMax)

/-- What the host must make sure of before a run: `sp` and `bp` even and within 0..65534
(70_reset_and_hazards.md R302 (4), 93_implementation_defined.md V7). -/
def State.HostReady (s : State) : Prop :=
  s.sp.toNat % 2 = 0 ∧ s.sp.toNat ≤ params.spMax ∧ s.bp.toNat % 2 = 0 ∧ s.bp.toNat ≤ params.spMax

/-- The end of a run that counts as final: `Halted`, never `Faulted` (60_exceptions.md R275, R308). -/
def State.Final (s : State) : Prop := s.status = .halted

/-- The end of a run by a fatal condition (40_execution_cycle.md R124). -/
def State.Faulted (s : State) : Prop := ∃ r, s.status = .faulted r

/-! ### Kinds of instruction the statements speak of -/

/-- The destination register of the instructions that only compute or load into a register: ADD, SUB, AND,
OR, SHL, ASHR, LSHR, NOT and LD in every style; none for the others (10_state.md R21). -/
def destination : Instr → Option Reg
  | .addReg d _ _ | .addImm d _ | .subReg d _ _ | .subImm d _ | .andReg d _ _ | .andImm d _
  | .orReg d _ _ | .orImm d _ | .shl d _ | .ashr d _ | .lshr d _ | .not d
  | .ldImm d _ | .ldBp d _ | .ldReg d _ | .ldMem d _ => some d
  | .cmpReg _ _ _ | .cmpImm _ _ | .stReg _ _ | .stImm _ _ | .stBp _ _ | .push _ | .pop _
  | .locs _ _ | .jmp _ | .jgt _ | .jeq _ | .jge _ | .jlt _ | .jsr _ | .jle _ | .ret | .trap _ _
  | .illegal _ => none

/-- ADD, SUB, CMP and SHL: the instructions that define flag semantics (10_state.md R26). -/
def definesFlags : Instr → Bool
  | .addReg _ _ _ | .addImm _ _ | .subReg _ _ _ | .subImm _ _ | .cmpReg _ _ _ | .cmpImm _ _
  | .shl _ _ => true
  | .andReg _ _ _ | .andImm _ _ | .orReg _ _ _ | .orImm _ _ | .ashr _ _ | .lshr _ _ | .not _
  | .ldImm _ _ | .ldBp _ _ | .ldReg _ _ | .ldMem _ _ | .stReg _ _ | .stImm _ _ | .stBp _ _
  | .push _ | .pop _ | .locs _ _ | .jmp _ | .jgt _ | .jeq _ | .jge _ | .jlt _ | .jsr _ | .jle _
  | .ret | .trap _ _ | .illegal _ => false

/-- The fatal conditions an instruction may raise in execution (60_exceptions.md R260). -/
def mayRaise : Instr → Condition → Bool
  | .push _, .stackOverflow | .jsr _, .stackOverflow => true
  | .pop _, .stackUnderflow | .ret, .stackUnderflow => true
  | .ldBp _ _, .illegalAccess | .stBp _ _, .illegalAccess => true
  | .locs _ _, .allocationOverflow => true
  | .illegal _, .unknownOpcode => true
  | .ldMem _ _, .memoryOutOfRange | .stReg _ _, .memoryOutOfRange | .stImm _ _, .memoryOutOfRange => true
  | _, _ => false

/-- STACK, JSR and RET make more than one stack operation and may stop part-way (60_exceptions.md R268). -/
def mayStopPartWay : Instr → Bool
  | .push _ | .pop _ | .jsr _ | .ret => true
  | .addReg _ _ _ | .addImm _ _ | .subReg _ _ _ | .subImm _ _ | .cmpReg _ _ _ | .cmpImm _ _
  | .shl _ _ | .andReg _ _ _ | .andImm _ _ | .orReg _ _ _ | .orImm _ _ | .ashr _ _ | .lshr _ _
  | .not _ | .ldImm _ _ | .ldBp _ _ | .ldReg _ _ | .ldMem _ _ | .stReg _ _ | .stImm _ _
  | .stBp _ _ | .locs _ _ | .jmp _ | .jgt _ | .jeq _ | .jge _ | .jlt _ | .jle _ | .trap _ _
  | .illegal _ => false

/-- A jump that is not a call or a return: JMP, JGT, JEQ, JGE, JLT, JLE. -/
def isJump : Instr → Bool
  | .jmp _ | .jgt _ | .jeq _ | .jge _ | .jlt _ | .jle _ => true
  | .addReg _ _ _ | .addImm _ _ | .subReg _ _ _ | .subImm _ _ | .cmpReg _ _ _ | .cmpImm _ _
  | .shl _ _ | .andReg _ _ _ | .andImm _ _ | .orReg _ _ _ | .orImm _ _ | .ashr _ _ | .lshr _ _
  | .not _ | .ldImm _ _ | .ldBp _ _ | .ldReg _ _ | .ldMem _ _ | .stReg _ _ | .stImm _ _
  | .stBp _ _ | .push _ | .pop _ | .locs _ _ | .jsr _ | .ret | .trap _ _ | .illegal _ => false

/-! ### Runs -/

/-- The state `k` steps on, none when the machine stopped before. -/
def stepsFrom : Nat → State → Option State
  | 0, s => some s
  | k + 1, s =>
    match step s with
    | .next t => stepsFrom k t
    | .fault _ => none
    | .refused _ => none

end Sys2Proof.Machine
end

