-- ==== Sys2Proof/Certificates/Slice0/Obligations.lean ====
section
/-! DEFINITION. The statements for the provers, from the numbered rules of spec/. -/

namespace Sys2Proof.Machine

/-! ### Words of the statements -/

/-- `(r, f)` is what the adder gives for `a` and `b` (41_alu.md R140): the low 16 bits of the sum, and
each flag under its own condition. -/
def AdderGives (a b r : Word) (f : Flags) : Prop :=
  r.toNat = (a.toNat + b.toNat) % 65536 ∧
  (f.c = true ↔ a.toNat + b.toNat > 0xFFFF) ∧
  (f.v = true ↔ a.msb = b.msb ∧ r.msb ≠ a.msb) ∧
  (f.n = true ↔ r.msb = true) ∧
  (f.z = true ↔ r.toNat = 0)

/-- The 16-bit little-endian value of the two bytes at `a` (20_memory.md R51, R52). -/
def wordAt (m : Memory) (a : Nat) : Word :=
  BitVec.ofNat 16 ((m.read a).toNat + 256 * (m.read (a + 1)).toNat)

/-- The instruction word at `pc` as the decoder reads it (30_encoding.md R81). -/
def instrAt (s : State) : Instr := decodeWord (wordAt s.mem s.pc.toNat)

/-- Every byte of linear memory reads as before. -/
def SameMem (s t : State) : Prop := ∀ a, t.mem.read a = s.mem.read a

/-- Every byte of the stack region reads as before. -/
def SameStack (s t : State) : Prop := ∀ a, t.stack.read a = s.stack.read a

/-- Every general register reads as before. -/
def SameRegs (s t : State) : Prop := ∀ r, t.reg r = s.reg r

/-- The two bytes at `a` hold `v`, low byte first, and every other byte of `m'` is as in `m`. -/
def StoredWord (m m' : Memory) (a : Nat) (v : Word) : Prop :=
  (m'.read a).toNat = v.toNat % 256 ∧ (m'.read (a + 1)).toNat = v.toNat / 256 ∧
  ∀ x, x ≠ a → x ≠ a + 1 → m'.read x = m.read x

/-- `s` with the run ended by a fatal condition, its report made and nothing else changed
(60_exceptions.md R267, R268). -/
def endedBy (s : State) (c : Condition) (value : Int) : State :=
  { s with status := .faulted { condition := c, pc := s.pc, sp := s.sp, value := value } }

/-- The branch target by the word-level sign extension (45_branch.md R220). -/
def targetOf (s : State) (off : BitVec 9) : Word := BitVec.ofInt 16 ((s.pc.toNat : Int) + 2 * off.toInt)

/-- The registers of a mask, in ascending order (30_encoding.md R87), `k`-th from 0. -/
def maskReg (m : BitVec 8) (k : Nat) : Option Reg :=
  ((List.finRange 8).filter fun i => m.getLsbD i.val)[k]?

/-- How many registers a mask names. -/
def maskCount (m : BitVec 8) : Nat := ((List.finRange 8).filter fun i => m.getLsbD i.val).length

/-- `t` is `s` after the first `n` pushes of the mask's registers: their values lie upward from the old
`sp`, low byte first, and nothing else but `sp` has changed. -/
def AfterPushes (m : BitVec 8) (n : Nat) (s t : State) : Prop :=
  t.sp.toNat = s.sp.toNat + 2 * n ∧
  (∀ k r, k < n → maskReg m k = some r → wordAt t.stack (s.sp.toNat + 2 * k) = s.reg r) ∧
  (∀ a, a < s.sp.toNat ∨ s.sp.toNat + 2 * n ≤ a → t.stack.read a = s.stack.read a) ∧
  SameRegs s t ∧ SameMem s t ∧ t.bp = s.bp ∧ t.flags = s.flags ∧ t.traps = s.traps

/-- `t` is `s` after the first `n` pops into the mask's registers: the lowest register has the value from
the top of the stack, and nothing but those registers and `sp` has changed. -/
def AfterPops (m : BitVec 8) (n : Nat) (s t : State) : Prop :=
  t.sp.toNat = s.sp.toNat - 2 * n ∧
  (∀ k r, k < n → maskReg m k = some r → t.reg r = wordAt s.stack (s.sp.toNat - 2 * (k + 1))) ∧
  (∀ r, (∀ k, k < n → maskReg m k ≠ some r) → t.reg r = s.reg r) ∧
  SameStack s t ∧ SameMem s t ∧ t.bp = s.bp ∧ t.flags = s.flags ∧ t.traps = s.traps

end Sys2Proof.Machine

open Sys2Proof Sys2Proof.Machine

/-! ### Reset and the invariant -/

/-- What `State.reset` leaves when the host supplies nothing: every register, flag and byte 0, the run
going on, the trap channel empty. The zeros are the spec's own decision D24 (10_state.md R36, log entry 2);
`pc` is the model's choice and is left out (log entry 1). -/
def Obligations.ResetLeavesAllZeroAndRunning : Prop :=
  (∀ r, State.reset.reg r = 0) ∧ State.reset.sp = 0 ∧ State.reset.bp = 0 ∧
  State.reset.flags = ⟨false, false, false, false⟩ ∧ (∀ a, State.reset.mem.read a = 0) ∧
  (∀ a, State.reset.stack.read a = 0) ∧ State.reset.status = .running ∧ State.reset.traps = []

/-- The state after reset meets the machine invariant. -/
def Obligations.ResetMeetsInvariant : Prop := State.reset.Inv

/-- The start of a run writes `pc` and begins status and trap channel afresh; it clears nothing
(70_reset_and_hazards.md R301). -/
def Obligations.StartRunSetsOnlyPcStatusAndTraps : Prop :=
  ∀ (s : State) (a : Word), (s.startRun a).pc = a ∧ (s.startRun a).status = .running ∧
    (s.startRun a).traps = [] ∧ SameRegs s (s.startRun a) ∧ (s.startRun a).sp = s.sp ∧
    (s.startRun a).bp = s.bp ∧ (s.startRun a).flags = s.flags ∧ (s.startRun a).mem = s.mem ∧
    (s.startRun a).stack = s.stack

/-- Every step that answers a next state keeps the machine invariant: both regions stay canonical lists of
in-range, non-zero bytes, and `sp` stays within 0..65534 while the run goes on (10_state.md R24, R35). -/
def Obligations.StepKeepsInvariant : Prop :=
  ∀ s t : State, s.Inv → step s = .next t → t.Inv

/-! ### Encoding -/

/-- Words written out from the encodings of the spec decode to their instructions, and those instructions
encode to their canonical words (95_test_vectors.md section 2). -/
def Obligations.SpecWordsDecodeAndEncode : Prop :=
  decodeWord 0x0922 = .addReg 1 true 2 ∧ encode (.addReg 1 true 2) = 0x0922 ∧
  decodeWord 0x013F = .addImm 1 63 ∧ encode (.addImm 1 63) = 0x01FF ∧
  decodeWord 0x7DF0 = .not 5 ∧ encode (.not 5) = 0x750F ∧
  decodeWord 0x8441 = .ldBp 4 1 ∧ encode (.ldBp 4 1) = 0x8441 ∧
  decodeWord 0x9181 = .stBp 1 1 ∧ encode (.stBp 1 1) = 0x9101 ∧
  decodeWord 0xA109 = .push 0x09 ∧ decodeWord 0xD3FD = .jgt (-3) ∧
  decodeWord 0xE202 = .trap true 2 ∧ decodeWord 0xF123 = .illegal 0x123

/-- Decode and encode agree, for every instruction and every setting of the encoding parameters the spec
allows (30_encoding.md R102, 00_scope.md R7). -/
def Obligations.DecodeOfEncodeIsTheInstruction : Prop :=
  ∀ (c : Config) (i : Instr), c.Valid → decodeWith c (encodeWith c i) = i

/-- The decoder drops no bit of a field: re-encoding what a word decodes to gives the word back but for
the ignored bits of its row (30_encoding.md R98, R102). -/
def Obligations.EncodeOfDecodeKeepsEveryFieldBit : Prop :=
  ∀ w : Word, (decodeWord w).WellFormed →
    (encode (decodeWord w) ^^^ w) &&& ~~~ (tableRow (decodeWord w)).ignored = 0 ∧
    decodeWord (encode (decodeWord w)) = decodeWord w

/-- The ignored bits of a word's row are not tested: changing any of them leaves the instruction as it is
(30_encoding.md R98, decision D4). -/
def Obligations.IgnoredBitsAreNotTested : Prop :=
  ∀ w x : Word, (decodeWord w).WellFormed →
    decodeWord (w ^^^ (x &&& (tableRow (decodeWord w)).ignored)) = decodeWord w

/-- Exactly one row of the opcode table matches each word, the row of the instruction it decodes to
(30_encoding.md, preamble). -/
def Obligations.ExactlyOneTableRowMatches : Prop :=
  ∀ w : Word, w &&& (tableRow (decodeWord w)).mask = (tableRow (decodeWord w)).value ∧
    ∀ i : Instr, w &&& (tableRow i).mask = (tableRow i).value → tableRow i = tableRow (decodeWord w)

/-- A word whose top four bits are 15 is the only illegal encoding; executing it raises `UnknownOpcode`
with the word, and nothing else changes (30_encoding.md R97). -/
def Obligations.OpcodeFifteenIsTheOnlyIllegalEncoding : Prop :=
  (∀ w : Word, ¬ (decodeWord w).WellFormed ↔ w.toNat / 4096 = 15) ∧
  (∀ (w : Word) (s : State), w.toNat / 4096 = 15 →
    exec (decodeWord w) s = .next (endedBy s .unknownOpcode w.toNat)) ∧
  (∀ (low : BitVec 12) (s : State),
    exec (.illegal low) s = .next (endedBy s .unknownOpcode (0xF000 + low.toNat : Nat)))

/-! ### The step -/

/-- When the two bytes at `pc`, low byte first, decode to `i`, a step of a running machine is `exec i`:
the step adds nothing around it (30_encoding.md R81). -/
def Obligations.StepExecutesTheFetchedInstruction : Prop :=
  ∀ (s : State) (i : Instr), s.status = .running → s.pc ≠ 0xFFFF →
    decodeWord (BitVec.ofNat 16 ((s.mem.read s.pc.toNat).toNat + 256 * (s.mem.read (s.pc.toNat + 1)).toNat)) = i →
    step s = exec i s

/-- A fetch at 0xFFFF does not wrap: it raises `MemoryOutOfRange` and nothing executes (20_memory.md R53,
60_exceptions.md R266, the spec's own decision D16, log entry 18). -/
def Obligations.FetchAtLastByteIsFatal : Prop :=
  ∀ s : State, s.status = .running → s.pc = 0xFFFF →
    step s = .next (endedBy s .memoryOutOfRange 0xFFFF)

/-- `Halted` and `Faulted` are terminal: no step happens (10_state.md R33). That the model answers a fault
of its own name there is its choice (log entry 5). -/
def Obligations.NoStepAfterTheRunHasEnded : Prop :=
  ∀ s : State, (s.status = .halted → step s = .fault .runHalted) ∧
    (∀ r, s.status = .faulted r → step s = .fault (.runFaulted r))

/-- While a run goes on with `sp` in its range, every step answers a next state: no instruction is refused
and no fault of the model is met. -/
def Obligations.RunningMachineAlwaysSteps : Prop :=
  ∀ s : State, s.status = .running → s.sp.toNat ≤ 65534 → ∃ t, step s = .next t

/-- The trap channel only grows: a step appends the event of a TRAP and nothing else (10_state.md R34,
46_trap.md R250). -/
def Obligations.TrapChannelIsAppendOnly : Prop :=
  ∀ s t : State, step s = .next t →
    t.traps = s.traps ∨
    ∃ u c, instrAt s = .trap u c ∧
      t.traps = s.traps ++ [{ user := u, code := c, dump := if c = 1 then some s.regs else none }]

/-- A run halts only by a TRAP with code 0 (46_trap.md R251). -/
def Obligations.HaltOnlyByTrapCodeZero : Prop :=
  ∀ s t : State, step s = .next t → t.status = .halted → ∃ u, instrAt s = .trap u 0

/-- A step that ends the run by a fatal condition leaves `pc` at the instruction that raised it, reports
that address and the `sp` it stopped with, and changes neither linear memory, nor a flag, nor the trap
channel (60_exceptions.md R267, R268, 40_execution_cycle.md R128; the state afterwards is the spec's own
decision D22, log entry 4). -/
def Obligations.FatalReportNamesTheInstruction : Prop :=
  ∀ (s t : State) (r : Report), step s = .next t → t.status = .faulted r →
    r.pc = s.pc ∧ t.pc = s.pc ∧ r.sp = t.sp ∧ t.mem = s.mem ∧ t.flags = s.flags ∧ t.traps = s.traps

/-- Each fatal condition is raised only by the instructions of R260's table; every other instruction
leaves the run going on or halts it. -/
def Obligations.FatalConditionsComeOnlyFromTheirInstructions : Prop :=
  ∀ (i : Instr) (s t : State) (r : Report), s.status = .running → exec i s = .next t →
    t.status = .faulted r → mayRaise i r.condition = true

/-- An instruction with at most one check before its only write, when it ends the run by a fatal condition,
has changed nothing but the run status (60_exceptions.md R268). -/
def Obligations.FatalConditionLeavesStateOfSingleCheckInstructions : Prop :=
  ∀ (i : Instr) (s t : State) (r : Report), mayStopPartWay i = false → s.status = .running →
    exec i s = .next t → t.status = .faulted r → t = s.setStatus (.faulted r)

/-! ### Flags -/

/-- ADD, SUB, CMP and SHL overwrite all four flags whatever they were; every other instruction leaves them
untouched (10_state.md R26). -/
def Obligations.FlagsAreOverwrittenWholesaleOrUntouched : Prop :=
  (∀ (i : Instr) (s : State) (f : Flags), definesFlags i = true → exec i (s.setFlags f) = exec i s) ∧
  (∀ (i : Instr) (s t : State), definesFlags i = false → exec i s = .next t → t.flags = s.flags)

/-- No instruction reads Carry: two states that differ in C only step to states that differ in C at most
(10_state.md R27). -/
def Obligations.CarryIsNeverRead : Prop :=
  ∀ (i : Instr) (s t : State) (b : Bool), exec i s = .next t →
    ∃ t', exec i (s.setFlags { s.flags with c := b }) = .next t' ∧
      t'.setFlags { t'.flags with c := t.flags.c } = t

/-- The register-mode flag S has no effect (30_encoding.md R95, decision D8, log entry 12). -/
def Obligations.SignedFlagHasNoEffect : Prop :=
  ∀ (d src : Reg) (g g' : Bool) (s : State),
    exec (.addReg d g src) s = exec (.addReg d g' src) s ∧ exec (.subReg d g src) s = exec (.subReg d g' src) s ∧
    exec (.andReg d g src) s = exec (.andReg d g' src) s ∧ exec (.orReg d g src) s = exec (.orReg d g' src) s ∧
    exec (.cmpReg d g src) s = exec (.cmpReg d g' src) s

/-! ### ADD, SUB, CMP, AND, OR, NOT -/

/-- `add16`: the low 16 bits of the sum and the four flags, and it is commutative (41_alu.md R140). -/
def Obligations.AdderGivesSumAndFlags : Prop :=
  ∀ a b : Word, AdderGives a b (add16 a b).1 (add16 a b).2 ∧ add16 a b = add16 b a

/-- ADD in both modes writes the adder's result and flags and goes on (41_alu.md R143). -/
def Obligations.AddWritesAdderResult : Prop :=
  (∀ (d src : Reg) (g : Bool) (s : State), ∃ r f, AdderGives (s.reg src) (s.reg d) r f ∧
    exec (.addReg d g src) s = .next (((s.setReg d r).setFlags f).setPc (s.pc + 2))) ∧
  (∀ (d : Reg) (imm : BitVec 6) (s : State), ∃ r f, AdderGives (imm.setWidth 16) (s.reg d) r f ∧
    exec (.addImm d imm) s = .next (((s.setReg d r).setFlags f).setPc (s.pc + 2)))

/-- SUB in both modes writes `x[d] − op2` with the flags of adding the negated operand (41_alu.md R144;
the negation is on 16 bits, decision D9, log entry 13). -/
def Obligations.SubWritesDifferenceWithAdderFlags : Prop :=
  (∀ (d src : Reg) (g : Bool) (s : State), ∃ f, AdderGives (-(s.reg src)) (s.reg d) (s.reg d - s.reg src) f ∧
    exec (.subReg d g src) s = .next (((s.setReg d (s.reg d - s.reg src)).setFlags f).setPc (s.pc + 2))) ∧
  (∀ (d : Reg) (imm : BitVec 6) (s : State), ∃ f,
    AdderGives (-(imm.setWidth 16)) (s.reg d) (s.reg d - imm.setWidth 16) f ∧
    exec (.subImm d imm) s = .next (((s.setReg d (s.reg d - imm.setWidth 16)).setFlags f).setPc (s.pc + 2)))

/-- CMP in both modes sets the flags SUB would set and writes no register (41_alu.md R145). -/
def Obligations.CmpSetsSubFlagsOnly : Prop :=
  (∀ (d src : Reg) (g : Bool) (s : State), ∃ f, AdderGives (-(s.reg src)) (s.reg d) (s.reg d - s.reg src) f ∧
    exec (.cmpReg d g src) s = .next ((s.setFlags f).setPc (s.pc + 2))) ∧
  (∀ (d : Reg) (imm : BitVec 6) (s : State), ∃ f,
    AdderGives (-(imm.setWidth 16)) (s.reg d) (s.reg d - imm.setWidth 16) f ∧
    exec (.cmpImm d imm) s = .next ((s.setFlags f).setPc (s.pc + 2)))

/-- AND and OR in both modes combine bit by bit, NOT inverts each of the sixteen bits; all leave the flags
(41_alu.md R146, R147, 42_shift_not.md R161). -/
def Obligations.AndOrNotCombineBitsAndKeepFlags : Prop :=
  (∀ (d src : Reg) (g : Bool) (s : State),
    exec (.andReg d g src) s = .next ((s.setReg d (s.reg d &&& s.reg src)).setPc (s.pc + 2)) ∧
    exec (.orReg d g src) s = .next ((s.setReg d (s.reg d ||| s.reg src)).setPc (s.pc + 2))) ∧
  (∀ (d : Reg) (imm : BitVec 6) (s : State),
    exec (.andImm d imm) s = .next ((s.setReg d (s.reg d &&& imm.setWidth 16)).setPc (s.pc + 2)) ∧
    exec (.orImm d imm) s = .next ((s.setReg d (s.reg d ||| imm.setWidth 16)).setPc (s.pc + 2))) ∧
  (∀ (d : Reg) (s : State), ∃ r : Word, (∀ k, k < 16 → r.getLsbD k = !(s.reg d).getLsbD k) ∧
    exec (.not d) s = .next ((s.setReg d r).setPc (s.pc + 2)))

/-- The laws of the compare flags for `x[d]` against `op2`, with the anomalies at 0 and 0x8000
(41_alu.md R148). -/
def Obligations.CompareFlagLaws : Prop :=
  ∀ (d src : Reg) (g : Bool) (s t : State), exec (.cmpReg d g src) s = .next t →
    (t.flags.z = true ↔ s.reg d = s.reg src) ∧
    (t.flags.c = true ↔ s.reg src ≠ 0 ∧ (s.reg src).toNat ≤ (s.reg d).toNat) ∧
    (s.reg src ≠ 0x8000 →
      (t.flags.v = true ↔ (s.reg d).toInt - (s.reg src).toInt < -32768 ∨ 32767 < (s.reg d).toInt - (s.reg src).toInt) ∧
      (t.flags.n ≠ t.flags.v ↔ (s.reg d).toInt < (s.reg src).toInt)) ∧
    (s.reg src = 0x8000 → (t.flags.v = true ↔ (s.reg d).msb = true) ∧ t.flags.n ≠ t.flags.v)

/-- After CMP against anything but 0x8000 the conditional jumps test the signed relation of `x[d]` to `op2`
(45_branch.md R221, last column). -/
def Obligations.CompareThenBranchTestsSignedOrder : Prop :=
  ∀ (d src : Reg) (g : Bool) (off : BitVec 9) (s t : State), s.reg src ≠ 0x8000 →
    exec (.cmpReg d g src) s = .next t →
    exec (.jlt off) t = .next (t.setPc (if (s.reg d).toInt < (s.reg src).toInt then targetOf t off else t.pc + 2)) ∧
    exec (.jle off) t = .next (t.setPc (if (s.reg d).toInt ≤ (s.reg src).toInt then targetOf t off else t.pc + 2)) ∧
    exec (.jgt off) t = .next (t.setPc (if (s.reg src).toInt < (s.reg d).toInt then targetOf t off else t.pc + 2)) ∧
    exec (.jge off) t = .next (t.setPc (if (s.reg src).toInt ≤ (s.reg d).toInt then targetOf t off else t.pc + 2)) ∧
    exec (.jeq off) t = .next (t.setPc (if s.reg d = s.reg src then targetOf t off else t.pc + 2))

/-! ### The shifts -/

/-- SHL: the low 16 bits of the shifted value; Z, N from them, V cleared, C from bit 16 of the wide value
(42_shift_not.md R162; V = 0 is decision D10, log entry 14). -/
def Obligations.ShlWritesShiftedValueAndFlags : Prop :=
  ∀ (d : Reg) (n : BitVec 4) (s : State), ∃ (r : Word) (f : Flags),
    r.toNat = (s.reg d).toNat * 2 ^ n.toNat % 65536 ∧
    (f.z = true ↔ r.toNat = 0) ∧ (f.n = true ↔ r.msb = true) ∧ f.v = false ∧
    (f.c = true ↔ (s.reg d).toNat * 2 ^ n.toNat / 65536 % 2 = 1) ∧
    exec (.shl d n) s = .next (((s.setReg d r).setFlags f).setPc (s.pc + 2))

/-- ASHR: one arithmetic shift, the floor of the signed value over `2 ^ n` (42_shift_not.md R163, decision
D11, log entry 15); with the fall-through a logical shift by the same amount follows. -/
def Obligations.AshrWritesFloorOfSignedQuotient : Prop :=
  (∀ (d : Reg) (n : BitVec 4) (s : State), ∃ r : Word,
    r.toInt * 2 ^ n.toNat ≤ (s.reg d).toInt ∧ (s.reg d).toInt < (r.toInt + 1) * 2 ^ n.toNat ∧
    exec (.ashr d n) s = .next ((s.setReg d r).setPc (s.pc + 2))) ∧
  (∀ (v : Word) (n : BitVec 4), (ashrResult true v n).toNat = (ashrResult false v n).toNat / 2 ^ n.toNat)

/-- LSHR: zeros shifted in at the top, flags unchanged (42_shift_not.md R164). -/
def Obligations.LshrWritesUnsignedQuotient : Prop :=
  ∀ (d : Reg) (n : BitVec 4) (s : State), ∃ r : Word, r.toNat = (s.reg d).toNat / 2 ^ n.toNat ∧
    exec (.lshr d n) s = .next ((s.setReg d r).setPc (s.pc + 2))

/-! ### LD and ST -/

/-- LD-reg copies the register (43_load_store.md R182). -/
def Obligations.LdRegCopiesRegister : Prop :=
  ∀ (d src : Reg) (s : State), exec (.ldReg d src) s = .next ((s.setReg d (s.reg src)).setPc (s.pc + 2))

/-- LD-imm loads the six-bit immediate zero-extended (43_load_store.md R181, decision D7, log entry 11). -/
def Obligations.LdImmLoadsZeroExtendedImmediate : Prop :=
  ∀ (d : Reg) (imm : BitVec 6) (s : State), ∃ r : Word, r.toNat = imm.toNat ∧
    exec (.ldImm d imm) s = .next ((s.setReg d r).setPc (s.pc + 2))

/-- LD-mem loads the little-endian word at `x[src]`; at 0xFFFF it raises `MemoryOutOfRange` and writes
nothing (43_load_store.md R183). -/
def Obligations.LdMemLoadsLittleEndianWord : Prop :=
  ∀ (d src : Reg) (s : State), exec (.ldMem d src) s =
    if s.reg src = 0xFFFF then .next (endedBy s .memoryOutOfRange 0xFFFF)
    else .next ((s.setReg d (wordAt s.mem (s.reg src).toNat)).setPc (s.pc + 2))

/-- ST-reg stores `x[src]` little-endian at `x[a]`, any address but 0xFFFF, where it raises
`MemoryOutOfRange` and writes nothing (43_load_store.md R185). -/
def Obligations.StRegStoresLittleEndianWord : Prop :=
  ∀ (a src : Reg) (s : State), s.mem.wf = true →
    (s.reg a ≠ 0xFFFF → ∃ m', StoredWord s.mem m' (s.reg a).toNat (s.reg src) ∧
      exec (.stReg a src) s = .next ((s.setMem m').setPc (s.pc + 2))) ∧
    (s.reg a = 0xFFFF → exec (.stReg a src) s = .next (endedBy s .memoryOutOfRange 0xFFFF))

/-- ST-imm stores the zero-extended immediate at `x[a]`, both bytes, the high one 0 (43_load_store.md R186,
decision D7, log entry 11). -/
def Obligations.StImmStoresBothBytes : Prop :=
  ∀ (a : Reg) (imm : BitVec 6) (s : State), s.mem.wf = true →
    (s.reg a ≠ 0xFFFF → ∃ m', StoredWord s.mem m' (s.reg a).toNat (BitVec.ofNat 16 imm.toNat) ∧
      m'.read ((s.reg a).toNat + 1) = 0 ∧ exec (.stImm a imm) s = .next ((s.setMem m').setPc (s.pc + 2))) ∧
    (s.reg a = 0xFFFF → exec (.stImm a imm) s = .next (endedBy s .memoryOutOfRange 0xFFFF))

/-- LD-bp loads the stack word at `bp + 2 × off6` when that is at most `sp`, else it raises `IllegalAccess`
and writes nothing (43_load_store.md R184). -/
def Obligations.LdBpLoadsFrameSlot : Prop :=
  ∀ (d : Reg) (off : BitVec 6) (s : State), s.sp.toNat ≤ 65534 → exec (.ldBp d off) s =
    if s.sp.toNat < s.bp.toNat + 2 * off.toNat then
      .next (endedBy s .illegalAccess (s.bp.toNat + 2 * off.toNat : Nat))
    else .next ((s.setReg d (wordAt s.stack (s.bp.toNat + 2 * off.toNat))).setPc (s.pc + 2))

/-- ST-bp stores `x[src]` in the stack word at `bp + 2 × off6` when that is at most `sp`, without moving
`sp`, else it raises `IllegalAccess` and writes nothing (43_load_store.md R187). -/
def Obligations.StBpStoresFrameSlot : Prop :=
  ∀ (src : Reg) (off : BitVec 6) (s : State), s.stack.wf = true → s.sp.toNat ≤ 65534 →
    (s.bp.toNat + 2 * off.toNat ≤ s.sp.toNat →
      ∃ m', StoredWord s.stack m' (s.bp.toNat + 2 * off.toNat) (s.reg src) ∧
        exec (.stBp src off) s = .next ((s.setStack m').setPc (s.pc + 2))) ∧
    (s.sp.toNat < s.bp.toNat + 2 * off.toNat →
      exec (.stBp src off) s = .next (endedBy s .illegalAccess (s.bp.toNat + 2 * off.toNat : Nat)))

/-- Where the model itself stops: LD-bp and ST-bp at stack offset 65535, which only a host-supplied `sp` of
65535 lets through (93_implementation_defined.md V7; the stop is the model's choice, log entry 6). -/
def Obligations.FrameSlotAcrossRegionEndStops : Prop :=
  ∀ (r : Reg) (off : BitVec 6) (s : State), s.sp = 0xFFFF → s.bp.toNat + 2 * off.toNat = 65535 →
    exec (.ldBp r off) s = .fault (.stackOffsetOutsideRegion 65535) ∧
    exec (.stBp r off) s = .fault (.stackOffsetOutsideRegion 65535)

/-- A store is seen by the very next fetch: a word stored over the next instruction is what executes
(20_memory.md R64). -/
def Obligations.NextFetchSeesTheStore : Prop :=
  ∀ (a src : Reg) (s : State), s.status = .running → s.mem.wf = true → s.pc.toNat + 2 < 65535 →
    s.reg a = s.pc + 2 →
    ∃ t, exec (.stReg a src) s = .next t ∧ t.pc = s.pc + 2 ∧ step t = exec (decodeWord (s.reg src)) t

/-! ### STACK and LOCS -/

/-- PUSH: every register of the mask, lowest index first; when they do not all fit, `StackOverflow` by the
first that does not, the pushes before it done; the empty mask changes nothing but `pc`
(44_stack.md R202). -/
def Obligations.PushStacksMaskAscending : Prop :=
  ∀ (m : BitVec 8) (s : State), s.stack.wf = true →
    (maskCount m = 0 → exec (.push m) s = .next (s.setPc (s.pc + 2))) ∧
    (s.sp.toNat + 2 * maskCount m ≤ 65534 → ∃ t, exec (.push m) s = .next t ∧
      AfterPushes m (maskCount m) s t ∧ t.pc = s.pc + 2 ∧ t.status = s.status) ∧
    (0 < maskCount m → 65534 < s.sp.toNat + 2 * maskCount m → ∃ t n, n < maskCount m ∧
      exec (.push m) s = .next (endedBy t .stackOverflow (s.sp.toNat + 2 * n + 2 : Nat)) ∧
      65534 < s.sp.toNat + 2 * n + 2 ∧ (n = 0 ∨ s.sp.toNat + 2 * n ≤ 65534) ∧
      AfterPushes m n s t ∧ t.pc = s.pc)

/-- POP: into the registers of the mask, lowest index first; when the values run out, `StackUnderflow` by
the first pop that has none, the pops before it done; the empty mask discards one value
(44_stack.md R203, R201). -/
def Obligations.PopUnstacksMaskAscending : Prop :=
  (∀ s : State, exec (.pop 0) s =
    if s.sp.toNat < 2 then .next (endedBy s .stackUnderflow ((s.sp.toNat : Int) - 2))
    else .next ((s.setSp (s.sp - 2)).setPc (s.pc + 2))) ∧
  (∀ (m : BitVec 8) (s : State), m ≠ 0 →
    (2 * maskCount m ≤ s.sp.toNat → ∃ t, exec (.pop m) s = .next t ∧
      AfterPops m (maskCount m) s t ∧ t.pc = s.pc + 2 ∧ t.status = s.status) ∧
    (s.sp.toNat < 2 * maskCount m → ∃ t n, n < maskCount m ∧ n = s.sp.toNat / 2 ∧
      exec (.pop m) s = .next (endedBy t .stackUnderflow ((s.sp.toNat : Int) - 2 * n - 2)) ∧
      AfterPops m n s t ∧ t.pc = s.pc))

/-- `PUSH M; POP M` with a non-empty `M` that fits reverses the values among the registers of `M` and
restores `sp`; every other register keeps its value (44_stack.md R203; for the empty mask the POP discards
a value, log entry 33). -/
def Obligations.PushThenPopReversesRegisters : Prop :=
  ∀ (m : BitVec 8) (s : State), m ≠ 0 → s.stack.wf = true → s.sp.toNat + 2 * maskCount m ≤ 65534 →
    ∃ t u, exec (.push m) s = .next t ∧ exec (.pop m) t = .next u ∧ u.sp = s.sp ∧ u.status = s.status ∧
      (∀ k r q, k < maskCount m → maskReg m k = some r → maskReg m (maskCount m - 1 - k) = some q →
        u.reg r = s.reg q) ∧
      (∀ r, m.getLsbD r.val = false → u.reg r = s.reg r)

/-- LOCS moves `sp` by twice the size, up or down, and raises `AllocationOverflow` with `sp` unchanged when
the new value would leave 0..65534 (44_stack.md R204, decision D18, log entry 20). -/
def Obligations.LocsMovesStackPointerByWords : Prop :=
  ∀ (n : BitVec 6) (s : State),
    (s.sp.toNat + 2 * n.toNat ≤ 65534 → ∃ v : Word, v.toNat = s.sp.toNat + 2 * n.toNat ∧
      exec (.locs true n) s = .next ((s.setSp v).setPc (s.pc + 2))) ∧
    (65534 < s.sp.toNat + 2 * n.toNat →
      exec (.locs true n) s = .next (endedBy s .allocationOverflow (s.sp.toNat + 2 * n.toNat : Nat))) ∧
    (2 * n.toNat ≤ s.sp.toNat → ∃ v : Word, v.toNat = s.sp.toNat - 2 * n.toNat ∧
      exec (.locs false n) s = .next ((s.setSp v).setPc (s.pc + 2))) ∧
    (s.sp.toNat < 2 * n.toNat →
      exec (.locs false n) s = .next (endedBy s .allocationOverflow ((s.sp.toNat : Int) - 2 * n.toNat)))

/-- `sp` even and in range stays so over a step that leaves the run going on, when `bp` is even and in range
too; `bp` stays even as well unless the step is a RET (44_stack.md R206, 10_state.md R35). -/
def Obligations.EvenStackPointersAreKeptByAStep : Prop :=
  ∀ s t : State, s.HostReady → step s = .next t → t.status = .running →
    t.sp.toNat % 2 = 0 ∧ t.sp.toNat ≤ 65534 ∧
    (instrAt s ≠ .ret → t.bp.toNat % 2 = 0 ∧ t.bp.toNat ≤ 65534)

/-- The sharpened invariant of 10_state.md R35 (b) over whole runs: from an even start `sp` is even as long
as the run goes on. It FAILS of the machine the other rules give: RET loads `bp` with any word of the stack
(45_branch.md R229), so a second RET can leave `sp` odd (log entry 30). -/
def Obligations.StackPointerStaysEvenOverRuns : Prop :=
  ∀ (s t : State) (k : Nat), s.Inv → s.HostReady → stepsFrom k s = some t → t.status = .running →
    t.sp.toNat % 2 = 0

/-! ### BR -/

/-- JMP goes to the branch's own address plus twice the signed offset, modulo 65536
(45_branch.md R222). -/
def Obligations.JmpGoesToTarget : Prop :=
  ∀ (off : BitVec 9) (s : State), ∃ t : Word, (t.toNat : Int) = ((s.pc.toNat : Int) + 2 * off.toInt) % 65536 ∧
    exec (.jmp off) s = .next (s.setPc t)

/-- The five conditional jumps: each tests exactly its flag formula, goes to the target when it holds and to
the next instruction when not, and changes nothing but `pc`; jle is the complement of jgt
(45_branch.md R223, R224, R225, R226, R228). -/
def Obligations.ConditionalJumpsTestTheirFlags : Prop :=
  ∀ (off : BitVec 9) (s : State),
    exec (.jgt off) s = .next (s.setPc (if s.flags.z = false ∧ s.flags.n = s.flags.v then targetOf s off else s.pc + 2)) ∧
    exec (.jeq off) s = .next (s.setPc (if s.flags.z = true then targetOf s off else s.pc + 2)) ∧
    exec (.jge off) s = .next (s.setPc (if s.flags.n = s.flags.v then targetOf s off else s.pc + 2)) ∧
    exec (.jlt off) s = .next (s.setPc (if s.flags.n ≠ s.flags.v then targetOf s off else s.pc + 2)) ∧
    exec (.jle off) s = .next (s.setPc (if s.flags.z = true ∨ s.flags.n ≠ s.flags.v then targetOf s off else s.pc + 2)) ∧
    exec (.jle off) s = .next (s.setPc (if s.flags.z = false ∧ s.flags.n = s.flags.v then s.pc + 2 else targetOf s off))

/-- JSR pushes the return address and then `bp`, sets `bp` above them and goes to the target; with room for
one word only the first push is done, with none nothing is (45_branch.md R227, decision D13, log
entry 17). -/
def Obligations.JsrOpensAFrame : Prop :=
  ∀ (off : BitVec 9) (s : State), s.stack.wf = true →
    (s.sp.toNat ≤ 65530 → ∃ m' : Memory, wordAt m' s.sp.toNat = s.pc + 2 ∧ wordAt m' (s.sp.toNat + 2) = s.bp ∧
      (∀ a, a < s.sp.toNat ∨ s.sp.toNat + 4 ≤ a → m'.read a = s.stack.read a) ∧
      exec (.jsr off) s = .next ((((s.setStack m').setSp (s.sp + 4)).setBp (s.sp + 4)).setPc (targetOf s off))) ∧
    (65530 < s.sp.toNat → s.sp.toNat ≤ 65532 → ∃ m', StoredWord s.stack m' s.sp.toNat (s.pc + 2) ∧
      exec (.jsr off) s = .next (endedBy ((s.setStack m').setSp (s.sp + 2)) .stackOverflow (s.sp.toNat + 4 : Nat))) ∧
    (65532 < s.sp.toNat → exec (.jsr off) s = .next (endedBy s .stackOverflow (s.sp.toNat + 2 : Nat)))

/-- RET drops the frame and pops `bp` and then `pc`, exactly the popped value; when a pop fails the earlier
assignments stay (45_branch.md R229, decision D14, log entry 16). -/
def Obligations.RetClosesTheFrame : Prop :=
  ∀ s : State,
    (4 ≤ s.bp.toNat → exec .ret s = .next (((s.setSp (s.bp - 4)).setBp (wordAt s.stack (s.bp.toNat - 2))).setPc
      (wordAt s.stack (s.bp.toNat - 4)))) ∧
    (2 ≤ s.bp.toNat → s.bp.toNat < 4 → exec .ret s =
      .next (endedBy ((s.setSp (s.bp - 2)).setBp (wordAt s.stack (s.bp.toNat - 2))) .stackUnderflow
        ((s.bp.toNat : Int) - 4))) ∧
    (s.bp.toNat < 2 → exec .ret s = .next (endedBy (s.setSp s.bp) .stackUnderflow ((s.bp.toNat : Int) - 2)))

/-- The call and return round trip: a RET reached with the callee's `bp` and the frame's four bytes intact
returns to the instruction after the JSR with `sp` and `bp` as they were (45_branch.md R233). -/
def Obligations.JsrThenRetRestoresCaller : Prop :=
  ∀ (off : BitVec 9) (s t u : State), s.stack.wf = true → s.sp.toNat ≤ 65530 → exec (.jsr off) s = .next t →
    u.bp = s.sp + 4 → (∀ a, s.sp.toNat ≤ a → a < s.sp.toNat + 4 → u.stack.read a = t.stack.read a) →
    ∃ v, exec .ret u = .next v ∧ v.pc = s.pc + 2 ∧ v.sp = s.sp ∧ v.bp = s.bp ∧ v.flags = u.flags ∧ SameRegs u v

/-- Every instruction but RET keeps the parity of `pc` (10_state.md R22). -/
def Obligations.PcParityIsKeptByAllButRet : Prop :=
  ∀ (i : Instr) (s t : State), i ≠ .ret → exec i s = .next t → t.pc.toNat % 2 = s.pc.toNat % 2

/-! ### TRAP -/

/-- TRAP emits its event, with the eight registers on code 1 only; code 0 halts with `pc` unchanged, every
other code goes on; nothing else changes (46_trap.md R250). -/
def Obligations.TrapEmitsItsEvent : Prop :=
  ∀ (u : Bool) (c : BitVec 8) (s : State), ∃ e : TrapEvent, e.user = u ∧ e.code = c ∧
    e.dump = (if c = 1 then some s.regs else none) ∧
    exec (.trap u c) s = .next (if c = 0 then { s with traps := s.traps ++ [e], status := .halted }
      else { s with traps := s.traps ++ [e], pc := s.pc + 2 })

/-! ### Frames -/

/-- The frame of ADD, SUB, AND, OR, SHL, ASHR, LSHR, NOT and LD in every style: every register but the
destination, `sp`, `bp`, the trap channel and every byte of both regions are unchanged; the flags too, but
for ADD, SUB and SHL (10_state.md R21, R26, 41_alu.md R149, 43_load_store.md R188). -/
def Obligations.FrameOfRegisterInstructions : Prop :=
  ∀ (i : Instr) (d : Reg) (s t : State), destination i = some d → exec i s = .next t →
    (∀ r, r ≠ d → t.reg r = s.reg r) ∧ t.sp = s.sp ∧ t.bp = s.bp ∧ t.traps = s.traps ∧
    SameMem s t ∧ SameStack s t ∧ (definesFlags i = false → t.flags = s.flags) ∧
    (t.status = s.status ∨ t.Faulted)

/-- The frame of CMP and of the six jumps: nothing but `pc` and, for CMP, the flags (41_alu.md R145, R149,
45_branch.md R231). -/
def Obligations.FrameOfCompareAndJumps : Prop :=
  (∀ (d src : Reg) (g : Bool) (imm : BitVec 6) (i : Instr) (s t : State),
    i = .cmpReg d g src ∨ i = .cmpImm d imm → exec i s = .next t →
    SameRegs s t ∧ t.sp = s.sp ∧ t.bp = s.bp ∧ t.traps = s.traps ∧ t.status = s.status ∧
    SameMem s t ∧ SameStack s t) ∧
  (∀ (i : Instr) (s t : State), isJump i = true → exec i s = .next t →
    SameRegs s t ∧ t.sp = s.sp ∧ t.bp = s.bp ∧ t.traps = s.traps ∧ t.status = s.status ∧
    t.flags = s.flags ∧ SameMem s t ∧ SameStack s t)

/-- The frame of ST: the two bytes at the address the form stores to, linear memory at `x[a]` for ST-reg and
ST-imm, the stack at `bp + 2 × off6` for ST-bp; every other byte of both regions, every register, `sp`, `bp`,
the flags and the trap channel are unchanged (43_load_store.md R185, R186, R187, R188). -/
def Obligations.FrameOfStores : Prop :=
  (∀ (a src : Reg) (imm : BitVec 6) (i : Instr) (s t : State),
    i = .stReg a src ∨ i = .stImm a imm → exec i s = .next t →
    (∀ x, x ≠ (s.reg a).toNat → x ≠ (s.reg a).toNat + 1 → t.mem.read x = s.mem.read x) ∧ SameStack s t ∧
    SameRegs s t ∧ t.sp = s.sp ∧ t.bp = s.bp ∧ t.flags = s.flags ∧ t.traps = s.traps ∧
    (t.status = s.status ∨ t.Faulted)) ∧
  (∀ (src : Reg) (off : BitVec 6) (s t : State), exec (.stBp src off) s = .next t →
    (∀ x, x ≠ bpOffset s.bp off → x ≠ bpOffset s.bp off + 1 → t.stack.read x = s.stack.read x) ∧ SameMem s t ∧
    SameRegs s t ∧ t.sp = s.sp ∧ t.bp = s.bp ∧ t.flags = s.flags ∧ t.traps = s.traps ∧
    (t.status = s.status ∨ t.Faulted))

/-- The frames of PUSH, POP and LOCS: PUSH writes only stack bytes from the old `sp` up to the new one and
`sp`, POP only the registers of its mask and `sp`, LOCS only `sp` (44_stack.md R202, R203, R204). -/
def Obligations.FrameOfStackInstructions : Prop :=
  (∀ (m : BitVec 8) (s t : State), exec (.push m) s = .next t →
    (∀ a, a < s.sp.toNat ∨ t.sp.toNat ≤ a → t.stack.read a = s.stack.read a) ∧ SameMem s t ∧ SameRegs s t ∧
    t.bp = s.bp ∧ t.flags = s.flags ∧ t.traps = s.traps ∧ (t.status = s.status ∨ t.Faulted)) ∧
  (∀ (m : BitVec 8) (s t : State), exec (.pop m) s = .next t →
    (∀ r, m.getLsbD r.val = false → t.reg r = s.reg r) ∧ SameMem s t ∧ SameStack s t ∧
    t.bp = s.bp ∧ t.flags = s.flags ∧ t.traps = s.traps ∧ (t.status = s.status ∨ t.Faulted)) ∧
  (∀ (alloc : Bool) (n : BitVec 6) (s t : State), exec (.locs alloc n) s = .next t →
    SameRegs s t ∧ SameMem s t ∧ SameStack s t ∧ t.bp = s.bp ∧ t.flags = s.flags ∧ t.traps = s.traps ∧
    (t.status = s.status ∨ t.Faulted))

/-- The frames of JSR and RET: JSR writes only stack bytes from the old `sp` up to the new one, `sp` and
`bp`; RET only `sp` and `bp` (45_branch.md R227, R229). -/
def Obligations.FrameOfCallAndReturn : Prop :=
  (∀ (off : BitVec 9) (s t : State), exec (.jsr off) s = .next t →
    (∀ a, a < s.sp.toNat ∨ t.sp.toNat ≤ a → t.stack.read a = s.stack.read a) ∧ SameMem s t ∧ SameRegs s t ∧
    t.flags = s.flags ∧ t.traps = s.traps ∧ (t.status = s.status ∨ t.Faulted)) ∧
  (∀ s t : State, exec .ret s = .next t →
    SameRegs s t ∧ SameMem s t ∧ SameStack s t ∧ t.flags = s.flags ∧ t.traps = s.traps ∧
    (t.status = s.status ∨ t.Faulted))

/-- The frame of TRAP and of a reserved word: registers, flags, `sp`, `bp` and every byte of both regions
are unchanged; a reserved word sends no event (46_trap.md R250, 30_encoding.md R97). -/
def Obligations.FrameOfTrapAndReservedWords : Prop :=
  (∀ (u : Bool) (c : BitVec 8) (s t : State), exec (.trap u c) s = .next t →
    SameRegs s t ∧ t.sp = s.sp ∧ t.bp = s.bp ∧ t.flags = s.flags ∧ SameMem s t ∧ SameStack s t ∧
    (c ≠ 0 → t.status = s.status)) ∧
  (∀ (low : BitVec 12) (s t : State), exec (.illegal low) s = .next t →
    SameRegs s t ∧ t.sp = s.sp ∧ t.bp = s.bp ∧ t.flags = s.flags ∧ t.traps = s.traps ∧ SameMem s t ∧
    SameStack s t)
end

