-- ==== Sys2Proof/Laws/State.lean ====
section
/-! SUPPORT. One lemma per field per update of State, so that no proof unfolds a record update. -/

namespace Sys2Proof.Machine

/-! ### setReg -/

@[simp] theorem State.setReg_regs (s : State) (r : Reg) (v : Word) : (s.setReg r v).regs = s.regs.set r.val v := rfl
@[simp] theorem State.setReg_pc (s : State) (r : Reg) (v : Word) : (s.setReg r v).pc = s.pc := rfl
@[simp] theorem State.setReg_sp (s : State) (r : Reg) (v : Word) : (s.setReg r v).sp = s.sp := rfl
@[simp] theorem State.setReg_bp (s : State) (r : Reg) (v : Word) : (s.setReg r v).bp = s.bp := rfl
@[simp] theorem State.setReg_flags (s : State) (r : Reg) (v : Word) : (s.setReg r v).flags = s.flags := rfl
@[simp] theorem State.setReg_mem (s : State) (r : Reg) (v : Word) : (s.setReg r v).mem = s.mem := rfl
@[simp] theorem State.setReg_stack (s : State) (r : Reg) (v : Word) : (s.setReg r v).stack = s.stack := rfl
@[simp] theorem State.setReg_status (s : State) (r : Reg) (v : Word) : (s.setReg r v).status = s.status := rfl
@[simp] theorem State.setReg_traps (s : State) (r : Reg) (v : Word) : (s.setReg r v).traps = s.traps := rfl

/-! ### setPc -/

@[simp] theorem State.setPc_regs (s : State) (t : Word) : (s.setPc t).regs = s.regs := rfl
@[simp] theorem State.setPc_pc (s : State) (t : Word) : (s.setPc t).pc = t := rfl
@[simp] theorem State.setPc_sp (s : State) (t : Word) : (s.setPc t).sp = s.sp := rfl
@[simp] theorem State.setPc_bp (s : State) (t : Word) : (s.setPc t).bp = s.bp := rfl
@[simp] theorem State.setPc_flags (s : State) (t : Word) : (s.setPc t).flags = s.flags := rfl
@[simp] theorem State.setPc_mem (s : State) (t : Word) : (s.setPc t).mem = s.mem := rfl
@[simp] theorem State.setPc_stack (s : State) (t : Word) : (s.setPc t).stack = s.stack := rfl
@[simp] theorem State.setPc_status (s : State) (t : Word) : (s.setPc t).status = s.status := rfl
@[simp] theorem State.setPc_traps (s : State) (t : Word) : (s.setPc t).traps = s.traps := rfl
@[simp] theorem State.setPc_reg (s : State) (t : Word) (i : Reg) : (s.setPc t).reg i = s.reg i := rfl

/-! ### setSp -/

@[simp] theorem State.setSp_regs (s : State) (v : Word) : (s.setSp v).regs = s.regs := rfl
@[simp] theorem State.setSp_pc (s : State) (v : Word) : (s.setSp v).pc = s.pc := rfl
@[simp] theorem State.setSp_sp (s : State) (v : Word) : (s.setSp v).sp = v := rfl
@[simp] theorem State.setSp_bp (s : State) (v : Word) : (s.setSp v).bp = s.bp := rfl
@[simp] theorem State.setSp_flags (s : State) (v : Word) : (s.setSp v).flags = s.flags := rfl
@[simp] theorem State.setSp_mem (s : State) (v : Word) : (s.setSp v).mem = s.mem := rfl
@[simp] theorem State.setSp_stack (s : State) (v : Word) : (s.setSp v).stack = s.stack := rfl
@[simp] theorem State.setSp_status (s : State) (v : Word) : (s.setSp v).status = s.status := rfl
@[simp] theorem State.setSp_traps (s : State) (v : Word) : (s.setSp v).traps = s.traps := rfl
@[simp] theorem State.setSp_reg (s : State) (v : Word) (i : Reg) : (s.setSp v).reg i = s.reg i := rfl

/-! ### setBp -/

@[simp] theorem State.setBp_regs (s : State) (v : Word) : (s.setBp v).regs = s.regs := rfl
@[simp] theorem State.setBp_pc (s : State) (v : Word) : (s.setBp v).pc = s.pc := rfl
@[simp] theorem State.setBp_sp (s : State) (v : Word) : (s.setBp v).sp = s.sp := rfl
@[simp] theorem State.setBp_bp (s : State) (v : Word) : (s.setBp v).bp = v := rfl
@[simp] theorem State.setBp_flags (s : State) (v : Word) : (s.setBp v).flags = s.flags := rfl
@[simp] theorem State.setBp_mem (s : State) (v : Word) : (s.setBp v).mem = s.mem := rfl
@[simp] theorem State.setBp_stack (s : State) (v : Word) : (s.setBp v).stack = s.stack := rfl
@[simp] theorem State.setBp_status (s : State) (v : Word) : (s.setBp v).status = s.status := rfl
@[simp] theorem State.setBp_traps (s : State) (v : Word) : (s.setBp v).traps = s.traps := rfl
@[simp] theorem State.setBp_reg (s : State) (v : Word) (i : Reg) : (s.setBp v).reg i = s.reg i := rfl

/-! ### setFlags -/

@[simp] theorem State.setFlags_regs (s : State) (f : Flags) : (s.setFlags f).regs = s.regs := rfl
@[simp] theorem State.setFlags_pc (s : State) (f : Flags) : (s.setFlags f).pc = s.pc := rfl
@[simp] theorem State.setFlags_sp (s : State) (f : Flags) : (s.setFlags f).sp = s.sp := rfl
@[simp] theorem State.setFlags_bp (s : State) (f : Flags) : (s.setFlags f).bp = s.bp := rfl
@[simp] theorem State.setFlags_flags (s : State) (f : Flags) : (s.setFlags f).flags = f := rfl
@[simp] theorem State.setFlags_mem (s : State) (f : Flags) : (s.setFlags f).mem = s.mem := rfl
@[simp] theorem State.setFlags_stack (s : State) (f : Flags) : (s.setFlags f).stack = s.stack := rfl
@[simp] theorem State.setFlags_status (s : State) (f : Flags) : (s.setFlags f).status = s.status := rfl
@[simp] theorem State.setFlags_traps (s : State) (f : Flags) : (s.setFlags f).traps = s.traps := rfl
@[simp] theorem State.setFlags_reg (s : State) (f : Flags) (i : Reg) : (s.setFlags f).reg i = s.reg i := rfl

/-! ### setMem -/

@[simp] theorem State.setMem_regs (s : State) (m : Memory) : (s.setMem m).regs = s.regs := rfl
@[simp] theorem State.setMem_pc (s : State) (m : Memory) : (s.setMem m).pc = s.pc := rfl
@[simp] theorem State.setMem_sp (s : State) (m : Memory) : (s.setMem m).sp = s.sp := rfl
@[simp] theorem State.setMem_bp (s : State) (m : Memory) : (s.setMem m).bp = s.bp := rfl
@[simp] theorem State.setMem_flags (s : State) (m : Memory) : (s.setMem m).flags = s.flags := rfl
@[simp] theorem State.setMem_mem (s : State) (m : Memory) : (s.setMem m).mem = m := rfl
@[simp] theorem State.setMem_stack (s : State) (m : Memory) : (s.setMem m).stack = s.stack := rfl
@[simp] theorem State.setMem_status (s : State) (m : Memory) : (s.setMem m).status = s.status := rfl
@[simp] theorem State.setMem_traps (s : State) (m : Memory) : (s.setMem m).traps = s.traps := rfl
@[simp] theorem State.setMem_reg (s : State) (m : Memory) (i : Reg) : (s.setMem m).reg i = s.reg i := rfl

/-! ### setStack -/

@[simp] theorem State.setStack_regs (s : State) (m : Memory) : (s.setStack m).regs = s.regs := rfl
@[simp] theorem State.setStack_pc (s : State) (m : Memory) : (s.setStack m).pc = s.pc := rfl
@[simp] theorem State.setStack_sp (s : State) (m : Memory) : (s.setStack m).sp = s.sp := rfl
@[simp] theorem State.setStack_bp (s : State) (m : Memory) : (s.setStack m).bp = s.bp := rfl
@[simp] theorem State.setStack_flags (s : State) (m : Memory) : (s.setStack m).flags = s.flags := rfl
@[simp] theorem State.setStack_mem (s : State) (m : Memory) : (s.setStack m).mem = s.mem := rfl
@[simp] theorem State.setStack_stack (s : State) (m : Memory) : (s.setStack m).stack = m := rfl
@[simp] theorem State.setStack_status (s : State) (m : Memory) : (s.setStack m).status = s.status := rfl
@[simp] theorem State.setStack_traps (s : State) (m : Memory) : (s.setStack m).traps = s.traps := rfl
@[simp] theorem State.setStack_reg (s : State) (m : Memory) (i : Reg) : (s.setStack m).reg i = s.reg i := rfl

/-! ### setStatus -/

@[simp] theorem State.setStatus_regs (s : State) (st : Status) : (s.setStatus st).regs = s.regs := rfl
@[simp] theorem State.setStatus_pc (s : State) (st : Status) : (s.setStatus st).pc = s.pc := rfl
@[simp] theorem State.setStatus_sp (s : State) (st : Status) : (s.setStatus st).sp = s.sp := rfl
@[simp] theorem State.setStatus_bp (s : State) (st : Status) : (s.setStatus st).bp = s.bp := rfl
@[simp] theorem State.setStatus_flags (s : State) (st : Status) : (s.setStatus st).flags = s.flags := rfl
@[simp] theorem State.setStatus_mem (s : State) (st : Status) : (s.setStatus st).mem = s.mem := rfl
@[simp] theorem State.setStatus_stack (s : State) (st : Status) : (s.setStatus st).stack = s.stack := rfl
@[simp] theorem State.setStatus_status (s : State) (st : Status) : (s.setStatus st).status = st := rfl
@[simp] theorem State.setStatus_traps (s : State) (st : Status) : (s.setStatus st).traps = s.traps := rfl
@[simp] theorem State.setStatus_reg (s : State) (st : Status) (i : Reg) : (s.setStatus st).reg i = s.reg i := rfl

/-! ### emit -/

@[simp] theorem State.emit_regs (s : State) (e : TrapEvent) : (s.emit e).regs = s.regs := rfl
@[simp] theorem State.emit_pc (s : State) (e : TrapEvent) : (s.emit e).pc = s.pc := rfl
@[simp] theorem State.emit_sp (s : State) (e : TrapEvent) : (s.emit e).sp = s.sp := rfl
@[simp] theorem State.emit_bp (s : State) (e : TrapEvent) : (s.emit e).bp = s.bp := rfl
@[simp] theorem State.emit_flags (s : State) (e : TrapEvent) : (s.emit e).flags = s.flags := rfl
@[simp] theorem State.emit_mem (s : State) (e : TrapEvent) : (s.emit e).mem = s.mem := rfl
@[simp] theorem State.emit_stack (s : State) (e : TrapEvent) : (s.emit e).stack = s.stack := rfl
@[simp] theorem State.emit_status (s : State) (e : TrapEvent) : (s.emit e).status = s.status := rfl
@[simp] theorem State.emit_traps (s : State) (e : TrapEvent) : (s.emit e).traps = s.traps ++ [e] := rfl
@[simp] theorem State.emit_reg (s : State) (e : TrapEvent) (i : Reg) : (s.emit e).reg i = s.reg i := rfl

/-! ### advance -/

@[simp] theorem State.advance_regs (s : State) : s.advance.regs = s.regs := rfl
@[simp] theorem State.advance_pc (s : State) : s.advance.pc = s.pc + 2 := rfl
@[simp] theorem State.advance_sp (s : State) : s.advance.sp = s.sp := rfl
@[simp] theorem State.advance_bp (s : State) : s.advance.bp = s.bp := rfl
@[simp] theorem State.advance_flags (s : State) : s.advance.flags = s.flags := rfl
@[simp] theorem State.advance_mem (s : State) : s.advance.mem = s.mem := rfl
@[simp] theorem State.advance_stack (s : State) : s.advance.stack = s.stack := rfl
@[simp] theorem State.advance_status (s : State) : s.advance.status = s.status := rfl
@[simp] theorem State.advance_traps (s : State) : s.advance.traps = s.traps := rfl
@[simp] theorem State.advance_reg (s : State) (i : Reg) : s.advance.reg i = s.reg i := rfl

/-! ### halt -/

@[simp] theorem State.halt_regs (s : State) : s.halt.regs = s.regs := rfl
@[simp] theorem State.halt_pc (s : State) : s.halt.pc = s.pc := rfl
@[simp] theorem State.halt_sp (s : State) : s.halt.sp = s.sp := rfl
@[simp] theorem State.halt_bp (s : State) : s.halt.bp = s.bp := rfl
@[simp] theorem State.halt_flags (s : State) : s.halt.flags = s.flags := rfl
@[simp] theorem State.halt_mem (s : State) : s.halt.mem = s.mem := rfl
@[simp] theorem State.halt_stack (s : State) : s.halt.stack = s.stack := rfl
@[simp] theorem State.halt_status (s : State) : s.halt.status = .halted := rfl
@[simp] theorem State.halt_traps (s : State) : s.halt.traps = s.traps := rfl
@[simp] theorem State.halt_reg (s : State) (i : Reg) : s.halt.reg i = s.reg i := rfl

/-! ### raise -/

@[simp] theorem State.raise_regs (s : State) (c : Condition) (value : Int) : (s.raise c value).regs = s.regs := rfl
@[simp] theorem State.raise_pc (s : State) (c : Condition) (value : Int) : (s.raise c value).pc = s.pc := rfl
@[simp] theorem State.raise_sp (s : State) (c : Condition) (value : Int) : (s.raise c value).sp = s.sp := rfl
@[simp] theorem State.raise_bp (s : State) (c : Condition) (value : Int) : (s.raise c value).bp = s.bp := rfl
@[simp] theorem State.raise_flags (s : State) (c : Condition) (value : Int) : (s.raise c value).flags = s.flags := rfl
@[simp] theorem State.raise_mem (s : State) (c : Condition) (value : Int) : (s.raise c value).mem = s.mem := rfl
@[simp] theorem State.raise_stack (s : State) (c : Condition) (value : Int) : (s.raise c value).stack = s.stack := rfl
@[simp] theorem State.raise_status (s : State) (c : Condition) (value : Int) : (s.raise c value).status = .faulted { condition := c, pc := s.pc, sp := s.sp, value := value } := rfl
@[simp] theorem State.raise_traps (s : State) (c : Condition) (value : Int) : (s.raise c value).traps = s.traps := rfl
@[simp] theorem State.raise_reg (s : State) (c : Condition) (value : Int) (i : Reg) : (s.raise c value).reg i = s.reg i := rfl

/-! ### The register accessor under setReg -/

theorem State.reg_setReg (s : State) (r i : Reg) (v : Word) :
    (s.setReg r v).reg i = if i = r then v else s.reg i := by
  simp only [State.reg, State.setReg, Vector.getElem_set, Fin.ext_iff]
  split <;> split <;> simp_all

@[simp] theorem State.reg_setReg_same (s : State) (r : Reg) (v : Word) : (s.setReg r v).reg r = v := by
  simp [State.reg_setReg]

theorem State.reg_setReg_ne (s : State) {r i : Reg} (v : Word) (h : i ≠ r) :
    (s.setReg r v).reg i = s.reg i := by
  simp [State.reg_setReg, h]

/-- Two states with equal fields are equal, the registers compared one by one. -/
theorem State.ext_fields {s t : State} (hr : ∀ i, s.reg i = t.reg i) (hpc : s.pc = t.pc) (hsp : s.sp = t.sp)
    (hbp : s.bp = t.bp) (hf : s.flags = t.flags) (hm : s.mem = t.mem) (hk : s.stack = t.stack)
    (hst : s.status = t.status) (ht : s.traps = t.traps) : s = t := by
  have hregs : s.regs = t.regs := by
    apply Vector.ext
    intro i hi
    exact hr ⟨i, hi⟩
  cases s; cases t
  simp_all

end Sys2Proof.Machine
end

