-- ==== Sys2Proof/Laws/Memory.lean ====
section
/-! SUPPORT. The laws of a byte region: a read after a write, and that every operation keeps the canonical
form (20_memory.md R51, R57). -/

namespace Sys2Proof.Machine

/-! ### Reads -/

@[simp] theorem Memory.read_nil (a : Nat) : Memory.read [] a = unlistedByte := rfl

theorem Memory.read_cons (k : Nat) (v : Byte) (m : Memory) (a : Nat) :
    Memory.read ((k, v) :: m) a = if a = k then v else m.read a := rfl

theorem Memory.read_cell_append (a : Nat) (b : Byte) (m : Memory) (x : Nat) (h : x ≠ a) :
    Memory.read (Memory.cell a b ++ m) x = m.read x := by
  unfold Memory.cell
  split
  · simp
  · simp [Memory.read_cons, h]

/-- In a canonical list no entry lies below its bound. -/
theorem Memory.read_below {m : Memory} {lo a : Nat} (h : m.wfFrom lo = true) (ha : a < lo) :
    m.read a = unlistedByte := by
  induction m generalizing lo with
  | nil => rfl
  | cons c m ih =>
    obtain ⟨k, v⟩ := c
    simp only [Memory.wfFrom, Bool.and_eq_true, decide_eq_true_eq] at h
    rw [Memory.read_cons, if_neg (by omega)]
    exact ih h.2 (by omega)

/-- Storing a byte leaves every other address as it was, in any list. -/
theorem Memory.read_write_ne (m : Memory) {a x : Nat} (b : Byte) (h : x ≠ a) :
    (m.write a b).read x = m.read x := by
  induction m with
  | nil =>
    have := Memory.read_cell_append a b [] x h
    rwa [List.append_nil] at this
  | cons c m ih =>
    obtain ⟨k, v⟩ := c
    simp only [Memory.write]
    split
    · exact Memory.read_cell_append a b _ x h
    · split
      · rename_i hk
        rw [Memory.read_cell_append a b _ x h, Memory.read_cons, if_neg (by omega)]
      · simp only [Memory.read_cons, ih]

theorem Memory.read_cell_same {a : Nat} (b : Byte) {m : Memory} (h : m.read a = unlistedByte) :
    Memory.read (Memory.cell a b ++ m) a = b := by
  unfold Memory.cell
  split
  · simp_all
  · simp [Memory.read_cons]

theorem Memory.read_write_same_from {m : Memory} {lo : Nat} (hm : m.wfFrom lo = true) (a : Nat) (b : Byte) :
    (m.write a b).read a = b := by
  induction m generalizing lo with
  | nil => simpa [Memory.write] using Memory.read_cell_same (a := a) b (m := []) rfl
  | cons c m ih =>
    obtain ⟨k, v⟩ := c
    have hw := hm
    simp only [Memory.wfFrom, Bool.and_eq_true, decide_eq_true_eq] at hm
    simp only [Memory.write]
    split
    · rename_i hk
      refine Memory.read_cell_same b ?_
      rw [Memory.read_cons, if_neg (by omega)]
      exact Memory.read_below hm.2 (by omega)
    · split
      · exact Memory.read_cell_same b (Memory.read_below hm.2 (by omega))
      · rw [Memory.read_cons, if_neg (by assumption)]
        exact ih hm.2

/-- A byte reads back as stored. -/
theorem Memory.read_write_same {m : Memory} (hm : m.wf = true) (a : Nat) (b : Byte) :
    (m.write a b).read a = b := Memory.read_write_same_from hm a b

/-! ### The canonical form is kept -/

theorem Memory.wfFrom_mono {m : Memory} {lo lo' : Nat} (h : lo' ≤ lo) (hm : m.wfFrom lo = true) :
    m.wfFrom lo' = true := by
  cases m with
  | nil => rfl
  | cons c m =>
    obtain ⟨k, v⟩ := c
    simp only [Memory.wfFrom, Bool.and_eq_true, decide_eq_true_eq] at hm ⊢
    exact ⟨⟨⟨by omega, hm.1.1.2⟩, hm.1.2⟩, hm.2⟩

theorem Memory.wfFrom_cell {m : Memory} {lo a : Nat} (b : Byte) (hlo : lo ≤ a) (ha : a < 65536)
    (hm : m.wfFrom (a + 1) = true) : Memory.wfFrom (Memory.cell a b ++ m) lo = true := by
  unfold Memory.cell
  split
  · exact Memory.wfFrom_mono (by omega) hm
  · rename_i hb
    simp [Memory.wfFrom, hlo, ha, hb, hm]

theorem Memory.wfFrom_write {m : Memory} {lo a : Nat} (b : Byte) (hlo : lo ≤ a) (ha : a < 65536)
    (hm : m.wfFrom lo = true) : Memory.wfFrom (m.write a b) lo = true := by
  induction m generalizing lo with
  | nil => simpa [Memory.write] using Memory.wfFrom_cell (m := []) b hlo ha rfl
  | cons c m ih =>
    obtain ⟨k, v⟩ := c
    have hw := hm
    simp only [Memory.wfFrom, Bool.and_eq_true, decide_eq_true_eq] at hm
    simp only [Memory.write]
    split
    · refine Memory.wfFrom_cell b hlo ha ?_
      simp only [Memory.wfFrom, Bool.and_eq_true, decide_eq_true_eq]
      exact ⟨⟨⟨by omega, hm.1.1.2⟩, hm.1.2⟩, hm.2⟩
    · split
      · rename_i hk
        subst hk
        exact Memory.wfFrom_cell b hlo ha hm.2
      · have := ih (lo := k + 1) (by omega) hm.2
        simp only [Memory.wfFrom, Bool.and_eq_true, decide_eq_true_eq]
        exact ⟨⟨⟨hm.1.1.1, hm.1.1.2⟩, hm.1.2⟩, this⟩

/-- Storing a byte inside the region keeps the canonical form. -/
theorem Memory.wf_write {m : Memory} {a : Nat} (b : Byte) (ha : a < 65536) (hm : m.wf = true) :
    (m.write a b).wf = true := Memory.wfFrom_write b (Nat.zero_le a) ha hm

@[simp] theorem Memory.wf_nil : Memory.wf [] = true := rfl

/-- Canonical lists that read alike are equal. -/
theorem Memory.ext_of_read {m m' : Memory} {lo : Nat} (hm : m.wfFrom lo = true) (hm' : m'.wfFrom lo = true)
    (h : ∀ a, m.read a = m'.read a) : m = m' := by
  induction m generalizing m' lo with
  | nil =>
    cases m' with
    | nil => rfl
    | cons c m' =>
      obtain ⟨k, v⟩ := c
      have hv := h k
      simp only [Memory.wfFrom, Bool.and_eq_true, decide_eq_true_eq] at hm'
      simp only [Memory.read_nil, Memory.read_cons, if_true] at hv
      exact absurd hv.symm hm'.1.2
  | cons c m ih =>
    obtain ⟨k, v⟩ := c
    have hw := hm
    simp only [Memory.wfFrom, Bool.and_eq_true, decide_eq_true_eq] at hm
    cases m' with
    | nil =>
      have hv := h k
      simp only [Memory.read_nil, Memory.read_cons, if_true] at hv
      exact absurd hv hm.1.2
    | cons c' m' =>
      obtain ⟨k', v'⟩ := c'
      have hw' := hm'
      simp only [Memory.wfFrom, Bool.and_eq_true, decide_eq_true_eq] at hm'
      have hk : k = k' := by
        rcases Nat.lt_trichotomy k k' with hlt | heq | hgt
        · have hv := h k
          rw [Memory.read_cons, Memory.read_cons, if_pos rfl, if_neg (by omega),
            Memory.read_below hm'.2 (by omega)] at hv
          exact absurd hv hm.1.2
        · exact heq
        · have hv := h k'
          rw [Memory.read_cons, Memory.read_cons, if_neg (by omega), if_pos rfl,
            Memory.read_below hm.2 (by omega)] at hv
          exact absurd hv.symm hm'.1.2
      subst hk
      have hv : v = v' := by simpa [Memory.read_cons] using h k
      subst hv
      congr 1
      refine ih hm.2 hm'.2 fun a => ?_
      by_cases hak : a = k
      · subst hak
        rw [Memory.read_below hm.2 (by omega), Memory.read_below hm'.2 (by omega)]
      · simpa [Memory.read_cons, hak] using h a

/-! ### Words -/

@[simp] theorem loByte_wordOfBytes (lo hi : Byte) : loByte (wordOfBytes lo hi) = lo := by
  apply BitVec.eq_of_getLsbD_eq
  intro i h
  simp only [loByte, wordOfBytes, BitVec.getLsbD_extractLsb', BitVec.getLsbD_append, Nat.zero_add]
  simp [h]

@[simp] theorem hiByte_wordOfBytes (lo hi : Byte) : hiByte (wordOfBytes lo hi) = hi := by
  apply BitVec.eq_of_getLsbD_eq
  intro i h
  simp only [hiByte, wordOfBytes, BitVec.getLsbD_extractLsb', BitVec.getLsbD_append]
  simp [h]

@[simp] theorem wordOfBytes_lo_hi (w : Word) : wordOfBytes (loByte w) (hiByte w) = w := by
  apply BitVec.eq_of_getLsbD_eq
  intro i h
  simp only [wordOfBytes, loByte, hiByte, BitVec.getLsbD_append, BitVec.getLsbD_extractLsb']
  by_cases hi : i < 8
  · simp [hi]
  · have h8 : i - 8 < 8 := by omega
    have he : 8 + (i - 8) = i := by omega
    simp [hi, h8, he]

/-- A word from its bytes as a number (20_memory.md R51). -/
theorem wordOfBytes_eq_ofNat (lo hi : Byte) : wordOfBytes lo hi = BitVec.ofNat 16 (lo.toNat + 256 * hi.toNat) := by
  apply BitVec.eq_of_toNat_eq
  have h1 := lo.isLt
  have h2 := hi.isLt
  rw [wordOfBytes, BitVec.toNat_append, BitVec.toNat_ofNat, ← Nat.shiftLeft_add_eq_or_of_lt h1, Nat.shiftLeft_eq]
  omega

theorem Memory.readWord_eq_ofNat (m : Memory) (a : Nat) :
    m.readWord a = BitVec.ofNat 16 ((m.read a).toNat + 256 * (m.read (a + 1)).toNat) :=
  wordOfBytes_eq_ofNat _ _

theorem toNat_loByte (w : Word) : (loByte w).toNat = w.toNat % 256 := by
  simp [loByte, BitVec.extractLsb'_toNat]

theorem toNat_hiByte (w : Word) : (hiByte w).toNat = w.toNat / 256 := by
  have := w.isLt
  simp [hiByte, BitVec.extractLsb'_toNat, Nat.shiftRight_eq_div_pow]
  omega

/-- A word store leaves every address outside its two bytes as it was. -/
theorem Memory.read_writeWord_ne (m : Memory) {a x : Nat} (v : Word) (h : x ≠ a) (h' : x ≠ a + 1) :
    (m.writeWord a v).read x = m.read x := by
  rw [Memory.writeWord, Memory.read_write_ne _ _ h', Memory.read_write_ne _ _ h]

/-- A word store keeps the canonical form. -/
theorem Memory.wf_writeWord {m : Memory} {a : Nat} (v : Word) (ha : a + 1 < 65536) (hm : m.wf = true) :
    (m.writeWord a v).wf = true :=
  Memory.wf_write _ ha (Memory.wf_write _ (by omega) hm)

/-- The low byte of a stored word lies at its address. -/
theorem Memory.read_writeWord_lo {m : Memory} {a : Nat} (v : Word) (hm : m.wf = true) :
    (m.writeWord a v).read a = loByte v := by
  rw [Memory.writeWord, Memory.read_write_ne _ _ (by omega), Memory.read_write_same hm]

/-- The high byte of a stored word lies one above. -/
theorem Memory.read_writeWord_hi {m : Memory} {a : Nat} (v : Word) (ha : a < 65536) (hm : m.wf = true) :
    (m.writeWord a v).read (a + 1) = hiByte v :=
  Memory.read_write_same (Memory.wf_write _ ha hm) _ _

/-- A word reads back as stored. -/
theorem Memory.readWord_writeWord_same {m : Memory} {a : Nat} (v : Word) (ha : a < 65536) (hm : m.wf = true) :
    (m.writeWord a v).readWord a = v := by
  rw [Memory.readWord, Memory.read_writeWord_lo v hm, Memory.read_writeWord_hi v ha hm, wordOfBytes_lo_hi]

/-- A word read beside a word store is as it was. -/
theorem Memory.readWord_writeWord_ne (m : Memory) {a x : Nat} (v : Word) (h : x + 1 < a ∨ a + 1 < x) :
    (m.writeWord a v).readWord x = m.readWord x := by
  rw [Memory.readWord, Memory.read_writeWord_ne _ _ (by omega) (by omega),
    Memory.read_writeWord_ne _ _ (by omega) (by omega), Memory.readWord]

/-- The host's load keeps the canonical form. -/
theorem State.loadBytes_mem_wf {s : State} (bs : List Byte) (base : Nat) (hm : s.mem.wf = true) :
    (s.loadBytes base bs).mem.wf = true := by
  induction bs generalizing s base with
  | nil => exact hm
  | cons b bs ih =>
    simp only [State.loadBytes]
    split
    · exact ih _ (Memory.wf_write b (by assumption) hm)
    · exact hm

/-- Placing an instruction for the next step keeps the canonical form. -/
theorem State.withFetchWord_mem_wf {s : State} (nbits w : Nat) (hm : s.mem.wf = true) :
    (s.withFetchWord nbits w).mem.wf = true := by
  refine Memory.wf_writeWord _ ?_ hm
  split
  · decide
  · rename_i h
    have h' : s.pc.toNat ≠ 65535 := fun e => h (BitVec.eq_of_toNat_eq e)
    have := s.pc.isLt
    omega

end Sys2Proof.Machine
end

