-- ==== Sys2Proof/Laws/Ops.lean ====
section
/-! SUPPORT. One lemma per shared operation that says everything it can do; proofs cite these and do not
unfold the operations. -/

namespace Sys2Proof.Machine

@[simp] theorem params_spMax : params.spMax = 65534 := rfl
@[simp] theorem params_ashrFallthrough : params.ashrFallthrough = false := rfl

/-! ### Results -/

@[simp] theorem Res.bind_ok {α β : Type} (a : α) (s : State) (k : α → State → Res β) :
    (Res.ok a s).bind k = k a s := rfl
@[simp] theorem Res.bind_ended {α β : Type} (s : State) (k : α → State → Res β) :
    (Res.ended s : Res α).bind k = .ended s := rfl
@[simp] theorem Res.bind_fault {α β : Type} (f : Fault) (k : α → State → Res β) :
    (Res.fault f : Res α).bind k = .fault f := rfl
@[simp] theorem Res.andAdvance_ok (u : Unit) (s : State) : (Res.ok u s).andAdvance = .next s.advance := rfl
@[simp] theorem Res.andAdvance_ended (s : State) : (Res.ended s).andAdvance = .next s := rfl
@[simp] theorem Res.andAdvance_fault (f : Fault) : (Res.fault f).andAdvance = .fault f := rfl
@[simp] theorem Res.andJump_ok (t : Word) (s : State) : (Res.ok t s).andJump = .next (s.setPc t) := rfl
@[simp] theorem Res.andJump_ended (s : State) : (Res.ended s).andJump = .next s := rfl
@[simp] theorem Res.andJump_fault (f : Fault) : (Res.fault f).andJump = .fault f := rfl

/-- An advancing instruction answers a next state by completing or by a fatal condition. -/
theorem Res.andAdvance_next {r : Res Unit} {t : State} (h : r.andAdvance = .next t) :
    (∃ s, r = .ok () s ∧ t = s.advance) ∨ r = .ended t := by
  cases r with
  | ok u s => exact .inl ⟨s, rfl, by simpa using h.symm⟩
  | ended s => exact .inr (by simpa using h)
  | fault f => simp at h

/-- A jumping instruction answers a next state by completing or by a fatal condition. -/
theorem Res.andJump_next {r : Res Word} {t : State} (h : r.andJump = .next t) :
    (∃ w s, r = .ok w s ∧ t = s.setPc w) ∨ r = .ended t := by
  cases r with
  | ok w s => exact .inl ⟨w, s, rfl, by simpa using h.symm⟩
  | ended s => exact .inr (by simpa using h)
  | fault f => simp at h

/-! ### Words and their values -/

theorem word_eq_ffff_iff (w : Word) : w = 0xFFFF ↔ w.toNat = 65535 :=
  ⟨fun h => by simp [h], fun h => BitVec.eq_of_toNat_eq h⟩

/-! ### Linear memory -/

theorem memRead_of_ne {addr : Word} (s : State) (h : addr ≠ 0xFFFF) :
    memRead addr s = .ok (s.mem.readWord addr.toNat) s := if_neg h

theorem memRead_ffff (s : State) : memRead 0xFFFF s = .ended (s.raise .memoryOutOfRange 65535) := rfl

theorem memWrite_of_ne {addr : Word} (v : Word) (s : State) (h : addr ≠ 0xFFFF) :
    memWrite addr v s = .ok () (s.setMem (s.mem.writeWord addr.toNat v)) := if_neg h

theorem memWrite_ffff (v : Word) (s : State) :
    memWrite 0xFFFF v s = .ended (s.raise .memoryOutOfRange 65535) := rfl

/-! ### The stack region -/

theorem stackRead_of_lt {addr : Nat} (s : State) (h : addr < 65535) :
    stackRead addr s = .ok (s.stack.readWord addr) s := if_pos h

theorem stackWrite_of_lt {addr : Nat} (v : Word) (s : State) (h : addr < 65535) :
    stackWrite addr v s = .ok () (s.setStack (s.stack.writeWord addr v)) := if_pos h

theorem bpEa_of_le {off : BitVec 6} {s : State} (h : bpOffset s.bp off ≤ s.sp.toNat) :
    bpEa off s = .ok (bpOffset s.bp off) s := if_neg (by omega)

theorem bpEa_of_gt {off : BitVec 6} {s : State} (h : s.sp.toNat < bpOffset s.bp off) :
    bpEa off s = .ended (s.raise .illegalAccess (bpOffset s.bp off)) := if_pos h

theorem push_of_le (v : Word) {s : State} (h : s.sp.toNat + 2 ≤ 65534) :
    push v s = .ok () ((s.setStack (s.stack.writeWord s.sp.toNat v)).setSp (s.sp + 2)) := by
  unfold push
  rw [if_neg (by simp; omega), stackWrite_of_lt v s (by omega)]
  simp

theorem push_of_gt (v : Word) {s : State} (h : 65534 < s.sp.toNat + 2) :
    push v s = .ended (s.raise .stackOverflow (s.sp.toNat + 2)) := if_pos h

theorem pop_of_ge {s : State} (h : 2 ≤ s.sp.toNat) :
    pop s = .ok (s.stack.readWord (s.sp.toNat - 2)) (s.setSp (s.sp - 2)) := by
  unfold pop
  have := s.sp.isLt
  rw [if_neg (by omega), stackRead_of_lt _ (by omega)]
  simp

theorem pop_of_lt {s : State} (h : s.sp.toNat < 2) :
    pop s = .ended (s.raise .stackUnderflow ((s.sp.toNat : Int) - 2)) := if_pos h

theorem toNat_add_two {w : Word} (h : w.toNat + 2 ≤ 65535) : (w + 2).toNat = w.toNat + 2 := by
  rw [BitVec.toNat_add]; simp; omega

theorem toNat_sub_two {w : Word} (h : 2 ≤ w.toNat) : (w - 2).toNat = w.toNat - 2 := by
  rw [BitVec.toNat_sub]; have := w.isLt; simp; omega

/-- What a completed sequence of pushes leaves (44_stack.md R202, R205). -/
structure Pushed (rs : List Reg) (s t : State) : Prop where
  reg : ∀ i, t.reg i = s.reg i
  pc : t.pc = s.pc
  bp : t.bp = s.bp
  flags : t.flags = s.flags
  mem : t.mem = s.mem
  status : t.status = s.status
  traps : t.traps = s.traps
  sp : t.sp.toNat = s.sp.toNat + 2 * rs.length
  other : ∀ a, a < s.sp.toNat ∨ s.sp.toNat + 2 * rs.length ≤ a → t.stack.read a = s.stack.read a
  words : s.stack.wf = true → ∀ k (h : k < rs.length), t.stack.readWord (s.sp.toNat + 2 * k) = s.reg rs[k]
  wf : s.stack.wf = true → t.stack.wf = true

theorem Pushed.nil (s : State) : Pushed [] s s :=
  ⟨fun _ => rfl, rfl, rfl, rfl, rfl, rfl, rfl, by simp, fun _ _ => rfl, fun _ k h => by simp at h, id⟩

theorem Pushed.cons {r : Reg} {rs : List Reg} {s t : State} (h : s.sp.toNat + 2 ≤ 65534)
    (hp : Pushed rs ((s.setStack (s.stack.writeWord s.sp.toNat (s.reg r))).setSp (s.sp + 2)) t) :
    Pushed (r :: rs) s t := by
  have hsp : (s.sp + 2).toNat = s.sp.toNat + 2 := toNat_add_two (by omega)
  have ho := hp.other
  have hw := hp.words
  simp only [State.setSp_sp, State.setSp_stack, State.setStack_stack, hsp] at ho hw
  refine ⟨hp.reg, hp.pc, hp.bp, hp.flags, hp.mem, hp.status, hp.traps, ?_, ?_, ?_, ?_⟩
  · rw [hp.sp]
    simp only [State.setSp_sp, hsp, List.length_cons]
    omega
  · intro a ha
    simp only [List.length_cons] at ha
    rw [ho a (by omega), Memory.read_writeWord_ne _ _ (by omega) (by omega)]
  · intro hwf k hk
    have hwf' := Memory.wf_writeWord (a := s.sp.toNat) (s.reg r) (by omega) hwf
    cases k with
    | zero =>
      simp only [Nat.mul_zero, Nat.add_zero, List.getElem_cons_zero, Memory.readWord]
      rw [ho _ (by omega), ho _ (by omega)]
      exact Memory.readWord_writeWord_same (s.reg r) (by omega) hwf
    | succ k =>
      have := hw hwf' k (by simpa using hk)
      simp only [State.setSp_reg, State.setStack_reg] at this
      rw [List.getElem_cons_succ, ← this]
      congr 1
      omega
  · intro hwf
    exact hp.wf (Memory.wf_writeWord _ (by omega) hwf)

/-- Pushes that all fit are all done. -/
theorem pushAll_of_le {rs : List Reg} {s : State} (h : s.sp.toNat + 2 * rs.length ≤ 65534) :
    ∃ t, pushAll rs s = .ok () t ∧ Pushed rs s t := by
  induction rs generalizing s with
  | nil => exact ⟨s, rfl, Pushed.nil s⟩
  | cons r rs ih =>
    simp only [List.length_cons] at h
    have h2 : s.sp.toNat + 2 ≤ 65534 := by omega
    have hsp : (s.sp + 2).toNat = s.sp.toNat + 2 := toNat_add_two (by omega)
    obtain ⟨t, ht, hp⟩ := ih (s := (s.setStack (s.stack.writeWord s.sp.toNat (s.reg r))).setSp (s.sp + 2))
      (by simp only [State.setSp_sp, hsp]; omega)
    exact ⟨t, by simp only [pushAll, push_of_le _ h2, Res.bind_ok, ht], Pushed.cons h2 hp⟩

/-- Pushes that do not all fit end the run at the first that does not, the ones before it done (R207). -/
theorem pushAll_of_gt {rs : List Reg} {s : State} (h : 65534 < s.sp.toNat + 2 * rs.length)
    (hs : s.sp.toNat ≤ 65534 ∨ rs ≠ []) :
    ∃ t, pushAll rs s = .ended (t.raise .stackOverflow (t.sp.toNat + 2)) ∧
      Pushed (rs.take ((65534 - s.sp.toNat) / 2)) s t ∧ (65534 - s.sp.toNat) / 2 < rs.length := by
  induction rs generalizing s with
  | nil => simp at h hs; omega
  | cons r rs ih =>
    simp only [List.length_cons] at h
    by_cases h2 : s.sp.toNat + 2 ≤ 65534
    · have hsp : (s.sp + 2).toNat = s.sp.toNat + 2 := toNat_add_two (by omega)
      obtain ⟨t, ht, hp, hl⟩ := ih (s := (s.setStack (s.stack.writeWord s.sp.toNat (s.reg r))).setSp (s.sp + 2))
        (by simp only [State.setSp_sp, hsp]; omega) (.inl (by simp only [State.setSp_sp, hsp]; omega))
      simp only [State.setSp_sp, hsp] at hp hl
      have hd : (65534 - s.sp.toNat) / 2 = (65534 - (s.sp.toNat + 2)) / 2 + 1 := by omega
      refine ⟨t, by simp only [pushAll, push_of_le _ h2, Res.bind_ok, ht], ?_, ?_⟩
      · rw [hd, List.take_succ_cons]
        exact Pushed.cons h2 hp
      · rw [hd, List.length_cons]
        omega
    · have hd : (65534 - s.sp.toNat) / 2 = 0 := by omega
      refine ⟨s, ?_, ?_, ?_⟩
      · simp only [pushAll, push_of_gt _ (show 65534 < s.sp.toNat + 2 by omega), Res.bind_ended]
      · rw [hd, List.take_zero]
        exact Pushed.nil s
      · rw [hd, List.length_cons]
        omega

/-- What a completed sequence of pops into different registers leaves (44_stack.md R203). -/
structure Popped (rs : List Reg) (s t : State) : Prop where
  popped : ∀ k (h : k < rs.length), t.reg rs[k] = s.stack.readWord (s.sp.toNat - 2 * (k + 1))
  other : ∀ i, i ∉ rs → t.reg i = s.reg i
  pc : t.pc = s.pc
  bp : t.bp = s.bp
  flags : t.flags = s.flags
  mem : t.mem = s.mem
  stack : t.stack = s.stack
  status : t.status = s.status
  traps : t.traps = s.traps
  sp : t.sp.toNat = s.sp.toNat - 2 * rs.length

theorem Popped.nil (s : State) : Popped [] s s :=
  ⟨fun k h => by simp at h, fun _ _ => rfl, rfl, rfl, rfl, rfl, rfl, rfl, rfl, by simp⟩

theorem Popped.cons {r : Reg} {rs : List Reg} {s t : State} (hr : r ∉ rs) (h : 2 ≤ s.sp.toNat)
    (hp : Popped rs ((s.setSp (s.sp - 2)).setReg r (s.stack.readWord (s.sp.toNat - 2))) t) :
    Popped (r :: rs) s t := by
  have hsp : (s.sp - 2).toNat = s.sp.toNat - 2 := toNat_sub_two h
  refine ⟨?_, ?_, hp.pc, hp.bp, hp.flags, hp.mem, hp.stack, hp.status, hp.traps, ?_⟩
  · intro k hk
    cases k with
    | zero =>
      rw [List.getElem_cons_zero, hp.other r hr, State.reg_setReg_same]
    | succ k =>
      have := hp.popped k (by simpa using hk)
      simp only [State.setReg_stack, State.setSp_stack, State.setReg_sp, State.setSp_sp, hsp] at this
      rw [List.getElem_cons_succ, this]
      congr 1
      omega
  · intro i hi
    rw [List.mem_cons, not_or] at hi
    rw [hp.other i hi.2, State.reg_setReg_ne _ _ hi.1, State.setSp_reg]
  · rw [hp.sp]
    simp only [State.setReg_sp, State.setSp_sp, hsp, List.length_cons]
    omega

/-- Pops that all have a value are all done. -/
theorem popAll_of_le {rs : List Reg} {s : State} (hn : rs.Nodup) (h : 2 * rs.length ≤ s.sp.toNat) :
    ∃ t, popAll rs s = .ok () t ∧ Popped rs s t := by
  induction rs generalizing s with
  | nil => exact ⟨s, rfl, Popped.nil s⟩
  | cons r rs ih =>
    simp only [List.length_cons] at h
    rw [List.nodup_cons] at hn
    have h2 : 2 ≤ s.sp.toNat := by omega
    have hsp : (s.sp - 2).toNat = s.sp.toNat - 2 := toNat_sub_two h2
    obtain ⟨t, ht, hp⟩ := ih hn.2 (s := (s.setSp (s.sp - 2)).setReg r (s.stack.readWord (s.sp.toNat - 2)))
      (by simp only [State.setReg_sp, State.setSp_sp, hsp]; omega)
    exact ⟨t, by simp only [popAll, pop_of_ge h2, Res.bind_ok, ht], Popped.cons hn.1 h2 hp⟩

/-- Pops that run out of values end the run at the first that has none, the ones before it done (R207). -/
theorem popAll_of_gt {rs : List Reg} {s : State} (hn : rs.Nodup) (h : s.sp.toNat < 2 * rs.length) :
    ∃ t, popAll rs s = .ended (t.raise .stackUnderflow ((t.sp.toNat : Int) - 2)) ∧
      Popped (rs.take (s.sp.toNat / 2)) s t ∧ s.sp.toNat / 2 < rs.length := by
  induction rs generalizing s with
  | nil => simp at h
  | cons r rs ih =>
    simp only [List.length_cons] at h
    rw [List.nodup_cons] at hn
    by_cases h2 : 2 ≤ s.sp.toNat
    · have hsp : (s.sp - 2).toNat = s.sp.toNat - 2 := toNat_sub_two h2
      obtain ⟨t, ht, hp, hl⟩ := ih hn.2 (s := (s.setSp (s.sp - 2)).setReg r (s.stack.readWord (s.sp.toNat - 2)))
        (by simp only [State.setReg_sp, State.setSp_sp, hsp]; omega)
      simp only [State.setReg_sp, State.setSp_sp, hsp] at hp hl
      have hd : s.sp.toNat / 2 = (s.sp.toNat - 2) / 2 + 1 := by omega
      refine ⟨t, by simp only [popAll, pop_of_ge h2, Res.bind_ok, ht], ?_, ?_⟩
      · rw [hd, List.take_succ_cons]
        exact Popped.cons (fun hm => hn.1 (List.mem_of_mem_take hm)) h2 hp
      · rw [hd, List.length_cons]
        omega
    · have hd : s.sp.toNat / 2 = 0 := by omega
      refine ⟨s, ?_, ?_, ?_⟩
      · simp only [popAll, pop_of_lt (show s.sp.toNat < 2 by omega), Res.bind_ended]
      · rw [hd, List.take_zero]
        exact Popped.nil s
      · rw [hd, List.length_cons]
        omega

/-! ### Register masks -/

theorem mem_maskRegs (m : BitVec 8) (i : Reg) : i ∈ maskRegs m ↔ m.getLsbD i.val = true := by
  simp [maskRegs, List.mem_finRange]

theorem maskRegs_nodup (m : BitVec 8) : (maskRegs m).Nodup := (List.nodup_finRange 8).filter _

@[simp] theorem maskRegs_zero : maskRegs 0 = [] := by decide

theorem maskRegs_length_le (m : BitVec 8) : (maskRegs m).length ≤ 8 := by
  have := List.length_filter_le (fun i : Reg => m.getLsbD i.val) (List.finRange 8)
  rwa [List.length_finRange] at this

theorem maskRegs_ne_nil {m : BitVec 8} (h : m ≠ 0) : maskRegs m ≠ [] := by
  intro hn
  refine h (BitVec.eq_of_getLsbD_eq fun i hi => ?_)
  have : ¬ m.getLsbD i = true := fun hb => by
    have := (mem_maskRegs m ⟨i, hi⟩).2 hb
    rw [hn] at this
    exact absurd this (by simp)
  simpa using this

/-! ### LOCS -/

theorem allocate_of_le {k : Nat} {s : State} (h : s.sp.toNat + k ≤ 65534) :
    allocate k s = .ok () (s.setSp (s.sp + BitVec.ofNat 16 k)) := if_neg (by simp; omega)

theorem allocate_of_gt {k : Nat} {s : State} (h : 65534 < s.sp.toNat + k) :
    allocate k s = .ended (s.raise .allocationOverflow (s.sp.toNat + k)) := if_pos h

theorem deallocate_of_le {k : Nat} {s : State} (h : k ≤ s.sp.toNat) :
    deallocate k s = .ok () (s.setSp (s.sp - BitVec.ofNat 16 k)) := if_neg (by omega)

theorem deallocate_of_gt {k : Nat} {s : State} (h : s.sp.toNat < k) :
    deallocate k s = .ended (s.raise .allocationOverflow ((s.sp.toNat : Int) - k)) := if_pos (by omega)

/-! ### The step -/

theorem step_halted {s : State} (h : s.status = .halted) : step s = .fault .runHalted := by
  simp only [step, h]

theorem step_faulted {s : State} {r : Report} (h : s.status = .faulted r) : step s = .fault (.runFaulted r) := by
  simp only [step, h]

/-- A step of a running machine off the last byte executes what the two bytes at `pc` decode to. -/
theorem step_exec {s : State} (h : s.status = .running) (hpc : s.pc ≠ 0xFFFF) :
    step s = exec (decodeWord (s.mem.readWord s.pc.toNat)) s := by
  simp only [step, h, fetch, memRead_of_ne s hpc]

theorem step_fetch_ffff {s : State} (h : s.status = .running) (hpc : s.pc = 0xFFFF) :
    step s = .next (s.raise .memoryOutOfRange 65535) := by
  simp only [step, h, fetch, hpc, memRead_ffff]

/-- Everything a step that answers a next state can be. -/
theorem step_next_cases {s t : State} (h : step s = .next t) :
    s.status = .running ∧
      ((s.pc = 0xFFFF ∧ t = s.raise .memoryOutOfRange 65535) ∨
       (s.pc ≠ 0xFFFF ∧ exec (decodeWord (s.mem.readWord s.pc.toNat)) s = .next t)) := by
  cases hs : s.status with
  | halted => rw [step_halted hs] at h; cases h
  | faulted r => rw [step_faulted hs] at h; cases h
  | running =>
    refine ⟨rfl, ?_⟩
    by_cases hpc : s.pc = 0xFFFF
    · rw [step_fetch_ffff hs hpc] at h
      exact .inl ⟨hpc, by injection h with h; exact h.symm⟩
    · rw [step_exec hs hpc] at h
      exact .inr ⟨hpc, h⟩

end Sys2Proof.Machine
end

