-- ==== Sys2Proof/Laws/Exec.lean ====
section
/-! SUPPORT. One inversion lemma per meaning that can go more than one way: everything it does when it
answers a next state. The meanings not listed here have one outcome, which `rfl` gives. -/

namespace Sys2Proof.Machine

/-! ### Linear memory -/

theorem execLdMem_cases {d src : Reg} {s t : State} (h : execLdMem d src s = .next t) :
    (s.reg src ≠ 0xFFFF ∧ t = (s.setReg d (s.mem.readWord (s.reg src).toNat)).advance) ∨
    (s.reg src = 0xFFFF ∧ t = s.raise .memoryOutOfRange 65535) := by
  unfold execLdMem at h
  by_cases ha : s.reg src = 0xFFFF
  · rw [ha, memRead_ffff] at h
    exact .inr ⟨ha, by injection h with h; exact h.symm⟩
  · rw [memRead_of_ne s ha] at h
    exact .inl ⟨ha, by injection h with h; exact h.symm⟩

/-- ST-reg and ST-imm share the store of a value at `x[a]`. -/
theorem memWrite_advance_cases {a : Word} {v : Word} {s t : State} (h : (memWrite a v s).andAdvance = .next t) :
    (a ≠ 0xFFFF ∧ t = (s.setMem (s.mem.writeWord a.toNat v)).advance) ∨
    (a = 0xFFFF ∧ t = s.raise .memoryOutOfRange 65535) := by
  by_cases ha : a = 0xFFFF
  · rw [ha, memWrite_ffff] at h
    exact .inr ⟨ha, by injection h with h; exact h.symm⟩
  · rw [memWrite_of_ne v s ha] at h
    exact .inl ⟨ha, by injection h with h; exact h.symm⟩

/-! ### The frame on the stack -/

theorem execLdBp_cases {d : Reg} {off : BitVec 6} {s t : State} (h : execLdBp d off s = .next t) :
    (bpOffset s.bp off ≤ s.sp.toNat ∧ bpOffset s.bp off < 65535 ∧
      t = (s.setReg d (s.stack.readWord (bpOffset s.bp off))).advance) ∨
    (s.sp.toNat < bpOffset s.bp off ∧ t = s.raise .illegalAccess (bpOffset s.bp off)) := by
  unfold execLdBp at h
  by_cases hle : bpOffset s.bp off ≤ s.sp.toNat
  · rw [bpEa_of_le hle, Res.bind_ok] at h
    by_cases hlt : bpOffset s.bp off < 65535
    · rw [stackRead_of_lt s hlt] at h
      exact .inl ⟨hle, hlt, by injection h with h; exact h.symm⟩
    · rw [stackRead, if_neg hlt] at h
      cases h
  · rw [bpEa_of_gt (by omega)] at h
    exact .inr ⟨by omega, by injection h with h; exact h.symm⟩

theorem execStBp_cases {src : Reg} {off : BitVec 6} {s t : State} (h : execStBp src off s = .next t) :
    (bpOffset s.bp off ≤ s.sp.toNat ∧ bpOffset s.bp off < 65535 ∧
      t = (s.setStack (s.stack.writeWord (bpOffset s.bp off) (s.reg src))).advance) ∨
    (s.sp.toNat < bpOffset s.bp off ∧ t = s.raise .illegalAccess (bpOffset s.bp off)) := by
  unfold execStBp at h
  by_cases hle : bpOffset s.bp off ≤ s.sp.toNat
  · rw [bpEa_of_le hle, Res.bind_ok] at h
    by_cases hlt : bpOffset s.bp off < 65535
    · rw [stackWrite_of_lt _ s hlt] at h
      exact .inl ⟨hle, hlt, by injection h with h; exact h.symm⟩
    · rw [stackWrite, if_neg hlt] at h
      cases h
  · rw [bpEa_of_gt (by omega)] at h
    exact .inr ⟨by omega, by injection h with h; exact h.symm⟩

/-! ### PUSH, POP and LOCS -/

/-- Pushes complete, or end the run at one that does not fit. -/
theorem pushAll_cases (rs : List Reg) (s : State) :
    (∃ t, pushAll rs s = .ok () t ∧ Pushed rs s t ∧ (rs = [] ∨ s.sp.toNat + 2 * rs.length ≤ 65534)) ∨
    (∃ t n, n < rs.length ∧ pushAll rs s = .ended (t.raise .stackOverflow (t.sp.toNat + 2)) ∧
      Pushed (rs.take n) s t) := by
  by_cases h : s.sp.toNat + 2 * rs.length ≤ 65534
  · obtain ⟨t, h1, h2⟩ := pushAll_of_le h
    exact .inl ⟨t, h1, h2, .inr h⟩
  · by_cases hr : rs = []
    · exact .inl ⟨s, by rw [hr]; rfl, by rw [hr]; exact Pushed.nil s, .inl hr⟩
    · obtain ⟨t, h1, h2, h3⟩ := pushAll_of_gt (s := s) (by omega) (.inr hr)
      exact .inr ⟨t, _, h3, h1, h2⟩

/-- Pops complete, or end the run at one that finds no value. -/
theorem popAll_cases {rs : List Reg} (hn : rs.Nodup) (s : State) :
    (∃ t, popAll rs s = .ok () t ∧ Popped rs s t ∧ 2 * rs.length ≤ s.sp.toNat) ∨
    (∃ t n, n < rs.length ∧ popAll rs s = .ended (t.raise .stackUnderflow ((t.sp.toNat : Int) - 2)) ∧
      Popped (rs.take n) s t ∧ 2 * n ≤ s.sp.toNat) := by
  by_cases h : 2 * rs.length ≤ s.sp.toNat
  · obtain ⟨t, h1, h2⟩ := popAll_of_le hn h
    exact .inl ⟨t, h1, h2, h⟩
  · obtain ⟨t, h1, h2, h3⟩ := popAll_of_gt (s := s) hn (by omega)
    exact .inr ⟨t, _, h3, h1, h2, by omega⟩

theorem execPush_cases {m : BitVec 8} {s t : State} (h : execPush m s = .next t) :
    (∃ u, Pushed (maskRegs m) s u ∧ (maskRegs m = [] ∨ s.sp.toNat + 2 * (maskRegs m).length ≤ 65534) ∧
      t = u.advance) ∨
    (∃ u n, n < (maskRegs m).length ∧ Pushed ((maskRegs m).take n) s u ∧
      t = u.raise .stackOverflow (u.sp.toNat + 2)) := by
  unfold execPush at h
  rcases pushAll_cases (maskRegs m) s with ⟨u, h1, h2, h3⟩ | ⟨u, n, h1, h2, h3⟩
  · rw [h1] at h
    exact .inl ⟨u, h2, h3, by injection h with h; exact h.symm⟩
  · rw [h2] at h
    exact .inr ⟨u, n, h1, h3, by injection h with h; exact h.symm⟩

theorem execPop_cases {m : BitVec 8} {s t : State} (h : execPop m s = .next t) :
    (m = 0 ∧ 2 ≤ s.sp.toNat ∧ t = (s.setSp (s.sp - 2)).advance) ∨
    (m = 0 ∧ s.sp.toNat < 2 ∧ t = s.raise .stackUnderflow ((s.sp.toNat : Int) - 2)) ∨
    (∃ u, Popped (maskRegs m) s u ∧ 2 * (maskRegs m).length ≤ s.sp.toNat ∧ t = u.advance) ∨
    (∃ u n, n < (maskRegs m).length ∧ 2 * n ≤ s.sp.toNat ∧ Popped ((maskRegs m).take n) s u ∧
      t = u.raise .stackUnderflow ((u.sp.toNat : Int) - 2)) := by
  unfold execPop at h
  by_cases hm : m = 0
  · rw [if_pos hm] at h
    by_cases h2 : 2 ≤ s.sp.toNat
    · rw [pop_of_ge h2] at h
      exact .inl ⟨hm, h2, by injection h with h; exact h.symm⟩
    · rw [pop_of_lt (by omega)] at h
      exact .inr (.inl ⟨hm, by omega, by injection h with h; exact h.symm⟩)
  · rw [if_neg hm] at h
    rcases popAll_cases (maskRegs_nodup m) s with ⟨u, h1, h2, h3⟩ | ⟨u, n, h1, h2, h3, h4⟩
    · rw [h1] at h
      exact .inr (.inr (.inl ⟨u, h2, h3, by injection h with h; exact h.symm⟩))
    · rw [h2] at h
      exact .inr (.inr (.inr ⟨u, n, h1, h4, h3, by injection h with h; exact h.symm⟩))

theorem execLocs_cases {alloc : Bool} {n : BitVec 6} {s t : State} (h : execLocs alloc n s = .next t) :
    (∃ v : Word, t = (s.setSp v).advance ∧
      (alloc = true ∧ v.toNat = s.sp.toNat + locsBytes n ∧ v.toNat ≤ 65534 ∨
       alloc = false ∧ v.toNat + locsBytes n = s.sp.toNat)) ∨
    (∃ x, t = s.raise .allocationOverflow x) := by
  have hn := n.isLt
  have hs := s.sp.isLt
  cases alloc with
  | true =>
    simp only [execLocs, if_true] at h
    by_cases hle : s.sp.toNat + locsBytes n ≤ 65534
    · rw [allocate_of_le hle] at h
      refine .inl ⟨_, by injection h with h; exact h.symm, .inl ⟨rfl, ?_, ?_⟩⟩ <;>
        (rw [BitVec.toNat_add, BitVec.toNat_ofNat]; omega)
    · rw [allocate_of_gt (by omega)] at h
      exact .inr ⟨_, by injection h with h; exact h.symm⟩
  | false =>
    simp only [execLocs, Bool.false_eq_true, if_false] at h
    by_cases hle : locsBytes n ≤ s.sp.toNat
    · rw [deallocate_of_le hle] at h
      refine .inl ⟨_, by injection h with h; exact h.symm, .inr ⟨rfl, ?_⟩⟩
      rw [BitVec.toNat_sub, BitVec.toNat_ofNat]
      omega
    · rw [deallocate_of_gt (by omega)] at h
      exact .inr ⟨_, by injection h with h; exact h.symm⟩

/-! ### BR -/

theorem branchIf_eq (b : Bool) (off : BitVec 9) (s : State) :
    branchIf b off s = .next (s.setPc (if b then branchTarget s.pc off else s.pc + 2)) := by
  cases b <;> rfl

/-- The six jumps, whatever the flags. -/
theorem branchIf_cases {b : Bool} {off : BitVec 9} {s t : State} (h : branchIf b off s = .next t) :
    t = s.setPc (branchTarget s.pc off) ∨ t = s.advance := by
  cases b with
  | true => exact .inl (by injection h with h; exact h.symm)
  | false => exact .inr (by injection h with h; exact h.symm)

theorem execJmp_cases {off : BitVec 9} {s t : State} (h : execJmp off s = .next t) :
    t = s.setPc (branchTarget s.pc off) ∨ t = s.advance := branchIf_cases (b := true) h

theorem execJgt_cases {off : BitVec 9} {s t : State} (h : execJgt off s = .next t) :
    t = s.setPc (branchTarget s.pc off) ∨ t = s.advance := branchIf_cases (b := s.flags.jgt) h

theorem execJeq_cases {off : BitVec 9} {s t : State} (h : execJeq off s = .next t) :
    t = s.setPc (branchTarget s.pc off) ∨ t = s.advance := branchIf_cases (b := s.flags.jeq) h

theorem execJge_cases {off : BitVec 9} {s t : State} (h : execJge off s = .next t) :
    t = s.setPc (branchTarget s.pc off) ∨ t = s.advance := branchIf_cases (b := s.flags.jge) h

theorem execJlt_cases {off : BitVec 9} {s t : State} (h : execJlt off s = .next t) :
    t = s.setPc (branchTarget s.pc off) ∨ t = s.advance := branchIf_cases (b := s.flags.jlt) h

theorem execJle_cases {off : BitVec 9} {s t : State} (h : execJle off s = .next t) :
    t = s.setPc (branchTarget s.pc off) ∨ t = s.advance := branchIf_cases (b := s.flags.jle) h

theorem execJsr_cases {off : BitVec 9} {s t : State} (h : execJsr off s = .next t) :
    (s.sp.toNat ≤ 65530 ∧ t = (((s.setStack ((s.stack.writeWord s.sp.toNat (s.pc + 2)).writeWord (s.sp.toNat + 2)
      s.bp)).setSp (s.sp + 4)).setBp (s.sp + 4)).setPc (branchTarget s.pc off)) ∨
    (65530 < s.sp.toNat ∧ s.sp.toNat ≤ 65532 ∧ t = ((s.setStack (s.stack.writeWord s.sp.toNat (s.pc + 2))).setSp
      (s.sp + 2)).raise .stackOverflow (s.sp.toNat + 4 : Nat)) ∨
    (65532 < s.sp.toNat ∧ t = s.raise .stackOverflow (s.sp.toNat + 2)) := by
  unfold execJsr at h
  by_cases h1 : s.sp.toNat + 2 ≤ 65534
  · have e2 : (s.sp + 2).toNat = s.sp.toNat + 2 := toNat_add_two (by omega)
    have e4 : s.sp + 2 + 2 = s.sp + 4 := by rw [BitVec.add_assoc]; rfl
    rw [push_of_le _ h1, Res.bind_ok] at h
    by_cases h2 : s.sp.toNat + 4 ≤ 65534
    · rw [push_of_le _ (by simp only [State.setSp_sp, e2]; omega)] at h
      simp only [Res.bind_ok, Res.andJump_ok, State.setSp_sp, e2, e4] at h
      exact .inl ⟨by omega, by injection h with h; exact h.symm⟩
    · rw [push_of_gt _ (by simp only [State.setSp_sp, e2]; omega)] at h
      simp only [Res.bind_ended, Res.andJump_ended, State.setSp_sp, e2] at h
      exact .inr (.inl ⟨by omega, by omega, by injection h with h; exact h.symm⟩)
  · rw [push_of_gt _ (by omega)] at h
    exact .inr (.inr ⟨by omega, by injection h with h; exact h.symm⟩)

theorem execRet_cases {s t : State} (h : execRet s = .next t) :
    (4 ≤ s.bp.toNat ∧ t = ((s.setSp (s.bp - 4)).setBp (s.stack.readWord (s.bp.toNat - 2))).setPc
      (s.stack.readWord (s.bp.toNat - 4))) ∨
    (2 ≤ s.bp.toNat ∧ s.bp.toNat < 4 ∧ t = ((s.setSp (s.bp - 2)).setBp (s.stack.readWord (s.bp.toNat - 2))).raise
      .stackUnderflow ((s.bp.toNat : Int) - 4)) ∨
    (s.bp.toNat < 2 ∧ t = (s.setSp s.bp).raise .stackUnderflow ((s.bp.toNat : Int) - 2)) := by
  have hb := s.bp.isLt
  unfold execRet at h
  by_cases h2 : 2 ≤ s.bp.toNat
  · have e2 : (s.bp - 2).toNat = s.bp.toNat - 2 := toNat_sub_two h2
    rw [pop_of_ge (by simpa only [State.setSp_sp] using h2), Res.bind_ok] at h
    by_cases h4 : 4 ≤ s.bp.toNat
    · have e4 : s.bp - 2 - 2 = s.bp - 4 := by
        apply BitVec.eq_of_toNat_eq
        rw [toNat_sub_two (by omega), e2, BitVec.toNat_sub]
        simp
        omega
      have e22 : s.bp.toNat - 2 - 2 = s.bp.toNat - 4 := by omega
      rw [pop_of_ge (by simp only [State.setBp_sp, State.setSp_sp, e2]; omega)] at h
      simp only [State.setBp_sp, State.setSp_sp, e2, e4, e22, State.setBp_stack, State.setSp_stack, Res.andJump_ok] at h
      exact .inl ⟨h4, by injection h with h; exact h.symm⟩
    · have e24 : (((s.bp.toNat - 2 : Nat) : Int) - 2) = (s.bp.toNat : Int) - 4 := by omega
      rw [pop_of_lt (by simp only [State.setBp_sp, State.setSp_sp, e2]; omega)] at h
      simp only [State.setBp_sp, State.setSp_sp, e2, e24, State.setSp_stack, Res.andJump_ended] at h
      exact .inr (.inl ⟨h2, by omega, by injection h with h; exact h.symm⟩)
  · rw [pop_of_lt (by simp only [State.setSp_sp]; omega)] at h
    exact .inr (.inr ⟨by omega, by injection h with h; exact h.symm⟩)

/-! ### TRAP -/

theorem execTrap_cases {user : Bool} {code : BitVec 8} {s t : State} (h : execTrap user code s = .next t) :
    (code = 0 ∧ t = (s.emit (trapEvent user code s)).halt) ∨
    (code ≠ 0 ∧ t = (s.emit (trapEvent user code s)).advance) := by
  unfold execTrap at h
  by_cases hc : code = 0
  · rw [if_pos hc] at h
    exact .inl ⟨hc, by injection h with h; exact h.symm⟩
  · rw [if_neg hc] at h
    exact .inr ⟨hc, by injection h with h; exact h.symm⟩

/-! ### Every instruction -/

/-- Everything an instruction does when it answers a next state: one constructor per shape of effect. -/
inductive Effect : Instr → State → State → Prop where
  /-- AND, OR, ASHR, LSHR, NOT and LD write their destination register. -/
  | writesReg {i : Instr} {s : State} {d : Reg} (v : Word) (hd : destination i = some d)
      (hf : definesFlags i = false) : Effect i s (s.setReg d v).advance
  /-- ADD, SUB and SHL write their destination register and the flags. -/
  | writesRegFlags {i : Instr} {s : State} {d : Reg} (v : Word) (f : Flags) (hd : destination i = some d)
      (hf : definesFlags i = true) : Effect i s ((s.setReg d v).setFlags f).advance
  /-- CMP writes the flags. -/
  | writesFlags {i : Instr} {s : State} (f : Flags) (hd : destination i = none) (hf : definesFlags i = true) :
      Effect i s (s.setFlags f).advance
  /-- A jump is taken. -/
  | jumps {i : Instr} {s : State} (off : BitVec 9) (hj : isJump i = true) :
      Effect i s (s.setPc (branchTarget s.pc off))
  /-- A jump is not taken. -/
  | falls {i : Instr} {s : State} (hj : isJump i = true) : Effect i s s.advance
  /-- The first check fails: the run ends with nothing else changed. -/
  | raises {i : Instr} {s : State} {c : Condition} (x : Int) (hc : mayRaise i c = true) : Effect i s (s.raise c x)
  /-- ST-reg and ST-imm store at `x[a]`. -/
  | storesMem {i : Instr} {s : State} (a : Reg) (v : Word)
      (hi : (∃ src, i = .stReg a src) ∨ ∃ imm, i = .stImm a imm) (ha : s.reg a ≠ 0xFFFF) :
      Effect i s (s.setMem (s.mem.writeWord (s.reg a).toNat v)).advance
  /-- ST-bp stores in the frame. -/
  | storesStack {s : State} (src : Reg) (off : BitVec 6) (hle : bpOffset s.bp off ≤ s.sp.toNat)
      (hlt : bpOffset s.bp off < 65535) :
      Effect (.stBp src off) s (s.setStack (s.stack.writeWord (bpOffset s.bp off) (s.reg src))).advance
  /-- PUSH completes. -/
  | pushes {s u : State} {m : BitVec 8} (hu : Pushed (maskRegs m) s u)
      (hl : maskRegs m = [] ∨ s.sp.toNat + 2 * (maskRegs m).length ≤ 65534) : Effect (.push m) s u.advance
  /-- PUSH overflows at its push number `n`. -/
  | overflows {s u : State} {m : BitVec 8} (n : Nat) (hn : n < (maskRegs m).length)
      (hu : Pushed ((maskRegs m).take n) s u) :
      Effect (.push m) s (u.raise .stackOverflow (u.sp.toNat + 2))
  /-- POP with the empty mask discards one value. -/
  | discards {s : State} (h : 2 ≤ s.sp.toNat) : Effect (.pop 0) s (s.setSp (s.sp - 2)).advance
  /-- POP completes. -/
  | pops {s u : State} {m : BitVec 8} (hu : Popped (maskRegs m) s u)
      (hl : 2 * (maskRegs m).length ≤ s.sp.toNat) : Effect (.pop m) s u.advance
  /-- POP underflows at its pop number `n`. -/
  | underflows {s u : State} {m : BitVec 8} (n : Nat) (hn : n < (maskRegs m).length) (hl : 2 * n ≤ s.sp.toNat)
      (hu : Popped ((maskRegs m).take n) s u) :
      Effect (.pop m) s (u.raise .stackUnderflow ((u.sp.toNat : Int) - 2))
  /-- LOCS moves `sp`. -/
  | movesSp {s : State} {alloc : Bool} {n : BitVec 6} (v : Word)
      (hv : alloc = true ∧ v.toNat = s.sp.toNat + locsBytes n ∧ v.toNat ≤ 65534 ∨
        alloc = false ∧ v.toNat + locsBytes n = s.sp.toNat) : Effect (.locs alloc n) s (s.setSp v).advance
  /-- JSR completes. -/
  | calls {s : State} (off : BitVec 9) (h : s.sp.toNat ≤ 65530) :
      Effect (.jsr off) s ((((s.setStack ((s.stack.writeWord s.sp.toNat (s.pc + 2)).writeWord (s.sp.toNat + 2)
        s.bp)).setSp (s.sp + 4)).setBp (s.sp + 4)).setPc (branchTarget s.pc off))
  /-- JSR overflows at its second push. -/
  | callOverflows {s : State} (off : BitVec 9) (h : 65530 < s.sp.toNat) (h' : s.sp.toNat ≤ 65532) :
      Effect (.jsr off) s (((s.setStack (s.stack.writeWord s.sp.toNat (s.pc + 2))).setSp
        (s.sp + 2)).raise .stackOverflow (s.sp.toNat + 4 : Nat))
  /-- RET completes. -/
  | returns {s : State} (h : 4 ≤ s.bp.toNat) :
      Effect .ret s (((s.setSp (s.bp - 4)).setBp (s.stack.readWord (s.bp.toNat - 2))).setPc
        (s.stack.readWord (s.bp.toNat - 4)))
  /-- RET underflows at its second pop. -/
  | returnUnderflows {s : State} (h : 2 ≤ s.bp.toNat) (h' : s.bp.toNat < 4) :
      Effect .ret s (((s.setSp (s.bp - 2)).setBp (s.stack.readWord (s.bp.toNat - 2))).raise .stackUnderflow
        ((s.bp.toNat : Int) - 4))
  /-- RET underflows at its first pop. -/
  | returnUnderflowsAtOnce {s : State} (h : s.bp.toNat < 2) :
      Effect .ret s ((s.setSp s.bp).raise .stackUnderflow ((s.bp.toNat : Int) - 2))
  /-- TRAP with code 0 halts. -/
  | halts {s : State} (user : Bool) : Effect (.trap user 0) s (s.emit (trapEvent user 0 s)).halt
  /-- TRAP with another code goes on. -/
  | traps {s : State} (user : Bool) {code : BitVec 8} (hc : code ≠ 0) :
      Effect (.trap user code) s (s.emit (trapEvent user code s)).advance

theorem next_injective {s t : State} (h : (.next s : Host.Outcome State Fault Refusal) = .next t) : t = s := by
  injection h with h
  exact h.symm

/-- An instruction that answers a next state has one of the listed effects. -/
theorem exec_effect {i : Instr} {s t : State} (h : exec i s = .next t) : Effect i s t := by
  cases i with
  | addReg => rw [next_injective h]; exact .writesRegFlags _ _ rfl rfl
  | addImm => rw [next_injective h]; exact .writesRegFlags _ _ rfl rfl
  | subReg => rw [next_injective h]; exact .writesRegFlags _ _ rfl rfl
  | subImm => rw [next_injective h]; exact .writesRegFlags _ _ rfl rfl
  | shl => rw [next_injective h]; exact .writesRegFlags _ _ rfl rfl
  | cmpReg => rw [next_injective h]; exact .writesFlags _ rfl rfl
  | cmpImm => rw [next_injective h]; exact .writesFlags _ rfl rfl
  | andReg => rw [next_injective h]; exact .writesReg _ rfl rfl
  | andImm => rw [next_injective h]; exact .writesReg _ rfl rfl
  | orReg => rw [next_injective h]; exact .writesReg _ rfl rfl
  | orImm => rw [next_injective h]; exact .writesReg _ rfl rfl
  | ashr => rw [next_injective h]; exact .writesReg _ rfl rfl
  | lshr => rw [next_injective h]; exact .writesReg _ rfl rfl
  | not => rw [next_injective h]; exact .writesReg _ rfl rfl
  | ldImm => rw [next_injective h]; exact .writesReg _ rfl rfl
  | ldReg => rw [next_injective h]; exact .writesReg _ rfl rfl
  | illegal => rw [next_injective h]; exact .raises _ rfl
  | ldBp =>
    rcases execLdBp_cases h with ⟨_, _, rfl⟩ | ⟨_, rfl⟩
    · exact .writesReg _ rfl rfl
    · exact .raises _ rfl
  | ldMem =>
    rcases execLdMem_cases h with ⟨_, rfl⟩ | ⟨_, rfl⟩
    · exact .writesReg _ rfl rfl
    · exact .raises _ rfl
  | stReg a src =>
    rcases memWrite_advance_cases h with ⟨ha, rfl⟩ | ⟨_, rfl⟩
    · exact .storesMem a _ (.inl ⟨src, rfl⟩) ha
    · exact .raises _ rfl
  | stImm a imm =>
    rcases memWrite_advance_cases h with ⟨ha, rfl⟩ | ⟨_, rfl⟩
    · exact .storesMem a _ (.inr ⟨imm, rfl⟩) ha
    · exact .raises _ rfl
  | stBp src off =>
    rcases execStBp_cases h with ⟨h1, h2, rfl⟩ | ⟨_, rfl⟩
    · exact .storesStack src off h1 h2
    · exact .raises _ rfl
  | push m =>
    rcases execPush_cases h with ⟨u, hu, hl, rfl⟩ | ⟨u, n, hn, hu, rfl⟩
    · exact .pushes hu hl
    · exact .overflows n hn hu
  | pop m =>
    rcases execPop_cases h with ⟨rfl, h2, rfl⟩ | ⟨_, _, rfl⟩ | ⟨u, hu, hl, rfl⟩ | ⟨u, n, hn, hl, hu, rfl⟩
    · exact .discards h2
    · exact .raises _ rfl
    · exact .pops hu hl
    · exact .underflows n hn hl hu
  | locs alloc n =>
    rcases execLocs_cases h with ⟨v, rfl, hv⟩ | ⟨x, rfl⟩
    · exact .movesSp v hv
    · exact .raises _ rfl
  | jsr off =>
    rcases execJsr_cases h with ⟨h1, rfl⟩ | ⟨h1, h2, rfl⟩ | ⟨_, rfl⟩
    · exact .calls off h1
    · exact .callOverflows off h1 h2
    · exact .raises _ rfl
  | ret =>
    rcases execRet_cases h with ⟨h1, rfl⟩ | ⟨h1, h2, rfl⟩ | ⟨h1, rfl⟩
    · exact .returns h1
    · exact .returnUnderflows h1 h2
    · exact .returnUnderflowsAtOnce h1
  | trap user code =>
    rcases execTrap_cases h with ⟨rfl, rfl⟩ | ⟨hc, rfl⟩
    · exact .halts user
    · exact .traps user hc
  | jmp off =>
    rcases execJmp_cases h with rfl | rfl
    · exact .jumps off rfl
    · exact .falls rfl
  | jgt off =>
    rcases execJgt_cases h with rfl | rfl
    · exact .jumps off rfl
    · exact .falls rfl
  | jeq off =>
    rcases execJeq_cases h with rfl | rfl
    · exact .jumps off rfl
    · exact .falls rfl
  | jge off =>
    rcases execJge_cases h with rfl | rfl
    · exact .jumps off rfl
    · exact .falls rfl
  | jlt off =>
    rcases execJlt_cases h with rfl | rfl
    · exact .jumps off rfl
    · exact .falls rfl
  | jle off =>
    rcases execJle_cases h with rfl | rfl
    · exact .jumps off rfl
    · exact .falls rfl

end Sys2Proof.Machine
end

