-- ==== Sys2Proof/Laws/Flags.lean ====
section
/-! SUPPORT. One lemma per function of the arithmetic/flag unit, the shifter and the operand forms, in
terms of their exact integers. -/

namespace Sys2Proof.Machine

theorem add16_result (a b : Word) : (add16 a b).1 = a + b := by
  apply BitVec.eq_of_toNat_eq
  simp [add16, BitVec.toNat_add]

theorem add16_flags (a b : Word) : (add16 a b).2 =
    { z := decide (a + b = 0), n := (a + b).msb
      v := decide (a.msb = b.msb ∧ (a + b).msb ≠ a.msb)
      c := decide (a.toNat + b.toNat > 0xFFFF) } := by
  have h := add16_result a b
  simp only [add16] at h
  simp only [add16, h, BitVec.msb_eq_getLsbD_last]

theorem neg16_eq_neg (v : Word) : neg16 v = -v := by
  apply BitVec.eq_of_toNat_eq
  simp [neg16]

theorem shl16_toNat (v : Word) (n : BitVec 4) : (shl16 v n).1.toNat = v.toNat * 2 ^ n.toNat % 65536 := by
  simp [shl16, Nat.shiftLeft_eq]

theorem lshr16_toNat (v : Word) (n : BitVec 4) : (lshr16 v n).toNat = v.toNat / 2 ^ n.toNat := by
  simp only [lshr16, BitVec.toNat_ofNat, Nat.shiftRight_eq_div_pow]
  exact Nat.mod_eq_of_lt (Nat.lt_of_le_of_lt (Nat.div_le_self _ _) v.isLt)

theorem ashr16_eq_sshiftRight (v : Word) (n : BitVec 4) : ashr16 v n = v.sshiftRight n.toNat := by
  rw [ashr16, BitVec.sshiftRight, Int.shiftRight_eq_div_pow]

theorem sext9_eq_toInt (off : BitVec 9) : sext9 off = off.toInt := by
  revert off; decide

theorem zext6_toNat (imm : BitVec 6) : (zext6 imm).toNat = imm.toNat := by
  have := imm.isLt
  simp only [zext6, BitVec.toNat_setWidth]
  omega

end Sys2Proof.Machine
end

