-- ==== Sys2Proof/Laws/PerInstr.lean ====
section
/-! SUPPORT. The per-instruction family EncodesInRow: the canonical word of an instruction stands in its
own row of spec/opcode_table.json (30_encoding.md R82 to R90). -/

namespace Sys2Proof.Laws.EncodesInRow

/-- The canonical word selects the instruction's row of the opcode table. -/
def Statement (i : Instr) : Prop := encode i &&& (tableRow i).mask = (tableRow i).value

theorem addReg (d : Reg) (sgn : Bool) (s : Reg) : Statement (.addReg d sgn s) := by
  revert d sgn s; unfold Statement; decide

theorem addImm (d : Reg) (imm : BitVec 6) : Statement (.addImm d imm) := by
  revert d imm; unfold Statement; decide

theorem subReg (d : Reg) (sgn : Bool) (s : Reg) : Statement (.subReg d sgn s) := by
  revert d sgn s; unfold Statement; decide

theorem subImm (d : Reg) (imm : BitVec 6) : Statement (.subImm d imm) := by
  revert d imm; unfold Statement; decide

theorem andReg (d : Reg) (sgn : Bool) (s : Reg) : Statement (.andReg d sgn s) := by
  revert d sgn s; unfold Statement; decide

theorem andImm (d : Reg) (imm : BitVec 6) : Statement (.andImm d imm) := by
  revert d imm; unfold Statement; decide

theorem orReg (d : Reg) (sgn : Bool) (s : Reg) : Statement (.orReg d sgn s) := by
  revert d sgn s; unfold Statement; decide

theorem orImm (d : Reg) (imm : BitVec 6) : Statement (.orImm d imm) := by
  revert d imm; unfold Statement; decide

theorem cmpReg (d : Reg) (sgn : Bool) (s : Reg) : Statement (.cmpReg d sgn s) := by
  revert d sgn s; unfold Statement; decide

theorem cmpImm (d : Reg) (imm : BitVec 6) : Statement (.cmpImm d imm) := by
  revert d imm; unfold Statement; decide

theorem shl (d : Reg) (n : BitVec 4) : Statement (.shl d n) := by
  revert d n; unfold Statement; decide

theorem ashr (d : Reg) (n : BitVec 4) : Statement (.ashr d n) := by
  revert d n; unfold Statement; decide

theorem lshr (d : Reg) (n : BitVec 4) : Statement (.lshr d n) := by
  revert d n; unfold Statement; decide

theorem not (d : Reg) : Statement (.not d) := by
  revert d; unfold Statement; decide

theorem ldImm (d : Reg) (imm : BitVec 6) : Statement (.ldImm d imm) := by
  revert d imm; unfold Statement; decide

theorem ldBp (d : Reg) (off : BitVec 6) : Statement (.ldBp d off) := by
  revert d off; unfold Statement; decide

theorem ldReg (d : Reg) (s : Reg) : Statement (.ldReg d s) := by
  revert d s; unfold Statement; decide

theorem ldMem (d : Reg) (s : Reg) : Statement (.ldMem d s) := by
  revert d s; unfold Statement; decide

theorem stReg (a : Reg) (s : Reg) : Statement (.stReg a s) := by
  revert a s; unfold Statement; decide

theorem stImm (a : Reg) (imm : BitVec 6) : Statement (.stImm a imm) := by
  revert a imm; unfold Statement; decide

theorem stBp (s : Reg) (off : BitVec 6) : Statement (.stBp s off) := by
  revert s off; unfold Statement; decide

theorem push (mask : BitVec 8) : Statement (.push mask) := by
  revert mask; unfold Statement; decide

theorem pop (mask : BitVec 8) : Statement (.pop mask) := by
  revert mask; unfold Statement; decide

theorem locs (alloc : Bool) (n : BitVec 6) : Statement (.locs alloc n) := by
  revert alloc n; unfold Statement; decide

theorem jmp (off : BitVec 9) : Statement (.jmp off) := by
  revert off; unfold Statement; decide

theorem jgt (off : BitVec 9) : Statement (.jgt off) := by
  revert off; unfold Statement; decide

theorem jeq (off : BitVec 9) : Statement (.jeq off) := by
  revert off; unfold Statement; decide

theorem jge (off : BitVec 9) : Statement (.jge off) := by
  revert off; unfold Statement; decide

theorem jlt (off : BitVec 9) : Statement (.jlt off) := by
  revert off; unfold Statement; decide

theorem jsr (off : BitVec 9) : Statement (.jsr off) := by
  revert off; unfold Statement; decide

theorem jle (off : BitVec 9) : Statement (.jle off) := by
  revert off; unfold Statement; decide

theorem ret : Statement (.ret) := by
  unfold Statement; decide

theorem trap (user : Bool) (code : BitVec 8) : Statement (.trap user code) := by
  revert user code; unfold Statement; decide

theorem illegal (low : BitVec 12) : Statement (.illegal low) := by
  revert low; unfold Statement; decide

end Sys2Proof.Laws.EncodesInRow
end

