-- ==== Sys2Proof/Tests/Slice0.lean ====
section
/-! SUPPORT. Small tests with expected results from spec/95_test_vectors.md and the rules' examples, the
WellFormed smoke test, and a witness for every statement that has hypotheses. -/

namespace Sys2Proof.Tests

open Sys2Proof.Machine

/-! ### Helpers -/

/-- The next state of an outcome, if there is one. -/
def nextOf (o : Host.Outcome State Fault Refusal) : Option State :=
  match o with
  | .next s => some s
  | .fault _ => none
  | .refused _ => none

/-- Reset with two general registers set. -/
def regs2 (i : Reg) (v : Word) (j : Reg) (w : Word) : State := (State.reset.setReg i v).setReg j w

/-- Reset with `sp`, `bp` and the stack bytes given. -/
def frame (sp bp : Word) (stack : Memory) : State := ((State.reset.setSp sp).setBp bp).setStack stack

/-- All four flags set, to show which instructions rewrite them. -/
def allFlags : Flags := ⟨true, true, true, true⟩

/-- What a fatal condition leaves in the status. -/
def fatal (c : Condition) (pc sp : Word) (value : Int) : Status :=
  .faulted { condition := c, pc := pc, sp := sp, value := value }

/-! ### WellFormed smoke test: the one check, on an ill-formed term -/

theorem test_wf_refuses_reserved_word : ¬ (Instr.illegal 0x123).WellFormed := by decide

theorem test_wf_accepts_add : (Instr.addReg 1 true 2).WellFormed := by decide

/-! ### Decoding: each constructor from a word written out from its pattern (95_test_vectors.md 2.1, 2.2) -/

theorem test_decode_addReg : decodeWord 0b0000100100100010 = .addReg 1 true 2 ∧ encode (.addReg 1 true 2) = 0b0000100100100010 := by decide

theorem test_decode_addImm : decodeWord 0b0000000111111111 = .addImm 1 63 ∧ encode (.addImm 1 63) = 0b0000000111111111 := by decide

theorem test_decode_subReg : decodeWord 0b0001111100000000 = .subReg 7 false 0 ∧ encode (.subReg 7 false 0) = 0b0001111100000000 := by decide

theorem test_decode_subImm : decodeWord 0b0001011111000001 = .subImm 7 1 ∧ encode (.subImm 7 1) = 0b0001011111000001 := by decide

theorem test_decode_andReg : decodeWord 0b0101110100000110 = .andReg 5 false 6 ∧ encode (.andReg 5 false 6) = 0b0101110100000110 := by decide

theorem test_decode_andImm : decodeWord 0b0101010111001111 = .andImm 5 15 ∧ encode (.andImm 5 15) = 0b0101010111001111 := by decide

theorem test_decode_orReg : decodeWord 0b0110100000000111 = .orReg 0 false 7 ∧ encode (.orReg 0 false 7) = 0b0110100000000111 := by decide

theorem test_decode_orImm : decodeWord 0b0110000011001001 = .orImm 0 9 ∧ encode (.orImm 0 9) = 0b0110000011001001 := by decide

theorem test_decode_cmpReg : decodeWord 0b1100101100000100 = .cmpReg 3 false 4 ∧ encode (.cmpReg 3 false 4) = 0b1100101100000100 := by decide

theorem test_decode_cmpImm : decodeWord 0b1100001111000000 = .cmpImm 3 0 ∧ encode (.cmpImm 3 0) = 0b1100001111000000 := by decide

theorem test_decode_shl : decodeWord 0b0010001000000001 = .shl 2 1 ∧ encode (.shl 2 1) = 0b0010001000000001 := by decide

theorem test_decode_ashr : decodeWord 0b0011001000001111 = .ashr 2 15 ∧ encode (.ashr 2 15) = 0b0011001000001111 := by decide

theorem test_decode_lshr : decodeWord 0b0100011000000100 = .lshr 6 4 ∧ encode (.lshr 6 4) = 0b0100011000000100 := by decide

theorem test_decode_not : decodeWord 0b0111010100001111 = .not 5 ∧ encode (.not 5) = 0b0111010100001111 := by decide

theorem test_decode_ldImm : decodeWord 0b1000000000000101 = .ldImm 0 5 ∧ encode (.ldImm 0 5) = 0b1000000000000101 := by decide

theorem test_decode_ldBp : decodeWord 0b1000010001000001 = .ldBp 4 1 ∧ encode (.ldBp 4 1) = 0b1000010001000001 := by decide

theorem test_decode_ldReg : decodeWord 0b1000101000000000 = .ldReg 2 0 ∧ encode (.ldReg 2 0) = 0b1000101000000000 := by decide

theorem test_decode_ldMem : decodeWord 0b1000101101000010 = .ldMem 3 2 ∧ encode (.ldMem 3 2) = 0b1000101101000010 := by decide

theorem test_decode_stReg : decodeWord 0b1001101000000000 = .stReg 2 0 ∧ encode (.stReg 2 0) = 0b1001101000000000 := by decide

theorem test_decode_stImm : decodeWord 0b1001001001111111 = .stImm 2 63 ∧ encode (.stImm 2 63) = 0b1001001001111111 := by decide

theorem test_decode_stBp : decodeWord 0b1001000100000001 = .stBp 1 1 ∧ encode (.stBp 1 1) = 0b1001000100000001 := by decide

theorem test_decode_push : decodeWord 0b1010000100001001 = .push 0x09 ∧ encode (.push 0x09) = 0b1010000100001001 := by decide

theorem test_decode_pop : decodeWord 0b1010000000001001 = .pop 0x09 ∧ encode (.pop 0x09) = 0b1010000000001001 := by decide

theorem test_decode_locs : decodeWord 0b1011000100000010 = .locs true 2 ∧ encode (.locs true 2) = 0b1011000100000010 := by decide

theorem test_decode_jmp : decodeWord 0b1101000111111111 = .jmp 0x1FF ∧ encode (.jmp 0x1FF) = 0b1101000111111111 := by decide

theorem test_decode_jgt : decodeWord 0b1101001111111101 = .jgt 0x1FD ∧ encode (.jgt 0x1FD) = 0b1101001111111101 := by decide

theorem test_decode_jeq : decodeWord 0b1101010011111111 = .jeq 0x0FF ∧ encode (.jeq 0x0FF) = 0b1101010011111111 := by decide

theorem test_decode_jge : decodeWord 0b1101011100000000 = .jge 0x100 ∧ encode (.jge 0x100) = 0b1101011100000000 := by decide

theorem test_decode_jlt : decodeWord 0b1101100000000001 = .jlt 1 ∧ encode (.jlt 1) = 0b1101100000000001 := by decide

theorem test_decode_jsr : decodeWord 0b1101101000000101 = .jsr 5 ∧ encode (.jsr 5) = 0b1101101000000101 := by decide

theorem test_decode_jle : decodeWord 0b1101110000000010 = .jle 2 ∧ encode (.jle 2) = 0b1101110000000010 := by decide

theorem test_decode_ret : decodeWord 0b1101111000000000 = .ret ∧ encode (.ret) = 0b1101111000000000 := by decide

theorem test_decode_trap : decodeWord 0b1110001000000010 = .trap true 2 ∧ encode (.trap true 2) = 0b1110001000000010 := by decide

theorem test_decode_illegal : decodeWord 0b1111000100100011 = .illegal 0x123 ∧ encode (.illegal 0x123) = 0b1111000100100011 := by decide

/-- Non-canonical words (95_test_vectors.md 2.2). -/
theorem test_decode_ignored_bits :
    decodeWord 0x2A11 = .shl 2 1 ∧ decodeWord 0x8AB8 = .ldReg 2 0 ∧ decodeWord 0x9A78 = .stReg 2 0 ∧
    decodeWord 0xAF09 = .push 0x09 ∧ decodeWord 0xBFC2 = .locs true 2 ∧ decodeWord 0xDFFF = .ret ∧
    decodeWord 0xED07 = .trap false 7 ∧ decodeWord 0x80C5 = .ldBp 0 5 := by decide

theorem test_decode_bytes_low_first : decodeBytes [0x05, 0x80, 0xFF] = .ok (.ldImm 0 5, [0xFF]) := by decide

theorem test_decode_bytes_truncated : decodeBytes [0x05] = .error .truncated := by decide

theorem test_decode_table_word : decodeTableWord 16 0xA109 = some (.push 0x09) := by decide

/-! ### Instructions -/

/-- 95_test_vectors.md 3.1. -/
theorem test_add_wraps : (nextOf (exec (.addReg 0 false 1) ((regs2 0 0x8000 1 0xFFFF).setFlags allFlags))).map (fun t => (t.reg 0, t.flags, t.pc)) = some (0x7FFF, ⟨false, false, true, true⟩, 2) := by decide

/-- 95_test_vectors.md 3.1. -/
theorem test_add_imm : (nextOf (exec (.addImm 0 1) ((regs2 0 0x7FFF 1 0).setFlags allFlags))).map (fun t => (t.reg 0, t.flags)) = some (0x8000, ⟨false, true, true, false⟩) := by decide

/-- 95_test_vectors.md 3.1. -/
theorem test_sub_reg_negates : (nextOf (exec (.subReg 0 true 1) (regs2 0 0x8000 1 0x7FFF))).map (fun t => (t.reg 0, t.flags)) = some (0x0001, ⟨false, false, true, true⟩) := by decide

/-- 41_alu.md R144, its example. -/
theorem test_sub_imm : (nextOf (exec (.subImm 1 1) (regs2 0 0 1 10))).map (fun t => (t.reg 1, t.flags)) = some (9, ⟨false, false, false, true⟩) := by decide

/-- 95_test_vectors.md 3.1, op2 = 0. -/
theorem test_sub_zero_clears_carry : (nextOf (exec (.subImm 0 0) (regs2 0 5 1 0))).map (fun t => (t.reg 0, t.flags)) = some (5, ⟨false, false, false, false⟩) := by decide

/-- 95_test_vectors.md 3.1, the 0x8000 anomaly. -/
theorem test_cmp_reg_at_min : (nextOf (exec (.cmpReg 3 false 4) (regs2 3 0x8000 4 0x8000))).map (fun t => (t.reg 3, t.flags)) = some (0x8000, ⟨true, false, true, true⟩) := by decide

/-- 41_alu.md R145, its example. -/
theorem test_cmp_imm : (nextOf (exec (.cmpImm 1 0) (State.reset.setFlags allFlags))).map (fun t => (t.reg 1, t.flags)) = some (0, ⟨true, false, false, false⟩) := by decide

/-- 95_test_vectors.md 3.2. -/
theorem test_and_reg : (nextOf (exec (.andReg 5 false 6) ((regs2 5 0xFFFF 6 0x0F0F).setFlags allFlags))).map (fun t => (t.reg 5, t.flags)) = some (0x0F0F, allFlags) := by decide

/-- 95_test_vectors.md 3.2. -/
theorem test_and_imm : (nextOf (exec (.andImm 5 15) (regs2 5 0x1234 0 0))).map (fun t => t.reg 5) = some 0x0004 := by decide

/-- 95_test_vectors.md 3.2. -/
theorem test_or_reg : (nextOf (exec (.orReg 0 false 7) ((regs2 0 0x00F0 7 0x0F00).setFlags allFlags))).map (fun t => (t.reg 0, t.flags)) = some (0x0FF0, allFlags) := by decide

/-- 95_test_vectors.md 3.2. -/
theorem test_or_imm : (nextOf (exec (.orImm 0 9) (regs2 0 0x8100 1 0))).map (fun t => t.reg 0) = some 0x8109 := by decide

/-- 95_test_vectors.md 3.2. -/
theorem test_not : (nextOf (exec (.not 5) ((regs2 5 0x5555 0 0).setFlags allFlags))).map (fun t => (t.reg 5, t.flags)) = some (0xAAAA, allFlags) := by decide

/-- 95_test_vectors.md 3.3, V cleared. -/
theorem test_shl_last_bit_out : (nextOf (exec (.shl 0 4) ((regs2 0 0xFFFF 1 0).setFlags allFlags))).map (fun t => (t.reg 0, t.flags)) = some (0xFFF0, ⟨false, true, false, true⟩) := by decide

/-- 95_test_vectors.md 3.3. -/
theorem test_shl_by_zero : (nextOf (exec (.shl 0 0) ((regs2 0 1 1 0).setFlags allFlags))).map (fun t => (t.reg 0, t.flags)) = some (1, ⟨false, false, false, false⟩) := by decide

/-- 95_test_vectors.md 3.3. -/
theorem test_ashr_negative : (nextOf (exec (.ashr 0 4) ((regs2 0 0xF000 1 0).setFlags allFlags))).map (fun t => (t.reg 0, t.flags)) = some (0xFF00, allFlags) := by decide

/-- 95_test_vectors.md 3.3, the column with the fall-through. -/
theorem test_ashr_fallthrough : ashrResult true 0x8001 8 = 0x00FF ∧ ashrResult false 0x8001 8 = 0xFF80 := by decide

/-- 95_test_vectors.md 3.3. -/
theorem test_lshr : (nextOf (exec (.lshr 0 7) ((regs2 0 0xFFFF 1 0).setFlags allFlags))).map (fun t => (t.reg 0, t.flags)) = some (0x01FF, allFlags) := by decide

/-- 95_test_vectors.md 3.4. -/
theorem test_ld_imm_zero_extends : (nextOf (exec (.ldImm 0 63) (regs2 0 0xFFFF 1 0))).map (fun t => t.reg 0) = some 0x003F := by decide

/-- 95_test_vectors.md 3.4. -/
theorem test_ld_reg : (nextOf (exec (.ldReg 2 0) (regs2 0 0x000B 1 0))).map (fun t => t.reg 2) = some 0x000B := by decide

/-- 95_test_vectors.md 3.4. -/
theorem test_ld_mem_odd_address : (nextOf (exec (.ldMem 3 2) ((regs2 2 0x0101 0 0).setMem [(0x101, 0x22), (0x102, 0x11)]))).map (fun t => t.reg 3) = some 0x1122 := by decide

/-- 95_test_vectors.md 3.4. -/
theorem test_ld_mem_last_byte : (nextOf (exec (.ldMem 3 2) (regs2 2 0xFFFF 3 0x5555))).map (fun t => (t.reg 3, t.pc, t.status)) = some (0x5555, 0, fatal .memoryOutOfRange 0 0 0xFFFF) := by decide

/-- 95_test_vectors.md 3.4, ea = sp. -/
theorem test_ld_bp_at_sp : (nextOf (exec (.ldBp 4 2) (frame 12 8 [(12, 0xCD), (13, 0xAB)]))).map (fun t => t.reg 4) = some 0xABCD := by decide

/-- 95_test_vectors.md 3.4. -/
theorem test_ld_bp_no_wrap : (nextOf (exec (.ldBp 0 63) (frame 65534 65534 []))).map (fun t => t.status) = some (fatal .illegalAccess 0 65534 65660) := by decide

/-- 95_test_vectors.md 3.4. -/
theorem test_st_reg_top : (nextOf (exec (.stReg 2 0) (regs2 2 0xFFFE 0 0xA1B2))).map (fun t => t.mem) = some [(0xFFFE, 0xB2), (0xFFFF, 0xA1)] := by decide

/-- 95_test_vectors.md 3.4. -/
theorem test_st_reg_last_byte : (nextOf (exec (.stReg 2 0) (regs2 2 0xFFFF 0 0xA1B2))).map (fun t => (t.mem, t.status)) = some ([], fatal .memoryOutOfRange 0 0 0xFFFF) := by decide

/-- 95_test_vectors.md 3.4, memory[0x101] becomes 0. -/
theorem test_st_imm_clears_high_byte : (nextOf (exec (.stImm 2 63) ((regs2 2 0x0100 0 0).setMem [(0x101, 0x99)]))).map (fun t => t.mem) = some [(0x100, 0x3F)] := by decide

/-- 95_test_vectors.md 3.4. -/
theorem test_st_bp : (nextOf (exec (.stBp 1 1) ((frame 12 8 []).setReg 1 0x0009))).map (fun t => (t.stack, t.sp)) = some ([(10, 0x09)], 12) := by decide

/-- 95_test_vectors.md 3.4. -/
theorem test_st_bp_above_sp : (nextOf (exec (.stBp 0 1) State.reset)).map (fun t => (t.stack, t.status)) = some ([], fatal .illegalAccess 0 0 2) := by decide

/-- 95_test_vectors.md 3.5. -/
theorem test_push_ascending : (nextOf (exec (.push 0x03) (regs2 0 7 1 9))).map (fun t => (t.stack, t.sp, t.pc)) = some ([(0, 7), (2, 9)], 4, 2) := by decide

/-- 95_test_vectors.md 3.5. -/
theorem test_push_partial : (nextOf (exec (.push 0x03) ((regs2 0 0x1111 1 0x2222).setSp 65532))).map (fun t => (t.stack, t.sp, t.pc, t.status)) = some ([(65532, 0x11), (65533, 0x11)], 65534, 0, fatal .stackOverflow 0 65534 65536) := by decide

/-- 95_test_vectors.md 3.5. -/
theorem test_pop_partial : (nextOf (exec (.pop 0x07) (frame 2 0 [(0, 0x34), (1, 0x12)]))).map (fun t => (t.reg 0, t.reg 1, t.sp, t.status)) = some (0x1234, 0, 0, fatal .stackUnderflow 0 0 (-2)) := by decide

/-- 95_test_vectors.md program P4. -/
theorem test_pop_lowest_gets_top : (nextOf (exec (.pop 0x09) (frame 4 0 [(0, 1), (2, 2)]))).map (fun t => (t.reg 0, t.reg 3, t.sp)) = some (2, 1, 0) := by decide

/-- 95_test_vectors.md 3.5. -/
theorem test_locs_allocates : (nextOf (exec (.locs true 63) (frame 65408 0 []))).map (fun t => (t.sp, t.status)) = some (65534, .running) := by decide

/-- 95_test_vectors.md 3.5. -/
theorem test_locs_deallocate_below_zero : (nextOf (exec (.locs false 63) (frame 124 0 []))).map (fun t => (t.sp, t.status)) = some (124, fatal .allocationOverflow 0 124 (-2)) := by decide

/-- 95_test_vectors.md 3.6. -/
theorem test_jmp_wraps : (nextOf (exec (.jmp 0x100) State.reset)).map (fun t => t.pc) = some 0xFE00 := by decide

/-- 95_test_vectors.md 3.6, its table of conditions: offset 4 at 0x0010. -/
theorem test_jgt_table : ([⟨false, false, false, true⟩, ⟨false, false, true, true⟩, ⟨false, true, false, true⟩, ⟨false, true, true, true⟩, ⟨true, false, false, true⟩, ⟨true, false, true, true⟩, ⟨true, true, false, true⟩, ⟨true, true, true, true⟩] : List Flags).map
    (fun f => (nextOf (exec (.jgt 4) ((State.reset.setPc 0x10).setFlags f))).map (fun t => t.pc)) =
    [some 0x18, some 0x12, some 0x12, some 0x18, some 0x12, some 0x12, some 0x12, some 0x12] := by decide

/-- 95_test_vectors.md 3.6, its table of conditions: offset 4 at 0x0010. -/
theorem test_jeq_table : ([⟨false, false, false, true⟩, ⟨false, false, true, true⟩, ⟨false, true, false, true⟩, ⟨false, true, true, true⟩, ⟨true, false, false, true⟩, ⟨true, false, true, true⟩, ⟨true, true, false, true⟩, ⟨true, true, true, true⟩] : List Flags).map
    (fun f => (nextOf (exec (.jeq 4) ((State.reset.setPc 0x10).setFlags f))).map (fun t => t.pc)) =
    [some 0x12, some 0x12, some 0x12, some 0x12, some 0x18, some 0x18, some 0x18, some 0x18] := by decide

/-- 95_test_vectors.md 3.6, its table of conditions: offset 4 at 0x0010. -/
theorem test_jge_table : ([⟨false, false, false, true⟩, ⟨false, false, true, true⟩, ⟨false, true, false, true⟩, ⟨false, true, true, true⟩, ⟨true, false, false, true⟩, ⟨true, false, true, true⟩, ⟨true, true, false, true⟩, ⟨true, true, true, true⟩] : List Flags).map
    (fun f => (nextOf (exec (.jge 4) ((State.reset.setPc 0x10).setFlags f))).map (fun t => t.pc)) =
    [some 0x18, some 0x12, some 0x12, some 0x18, some 0x18, some 0x12, some 0x12, some 0x18] := by decide

/-- 95_test_vectors.md 3.6, its table of conditions: offset 4 at 0x0010. -/
theorem test_jlt_table : ([⟨false, false, false, true⟩, ⟨false, false, true, true⟩, ⟨false, true, false, true⟩, ⟨false, true, true, true⟩, ⟨true, false, false, true⟩, ⟨true, false, true, true⟩, ⟨true, true, false, true⟩, ⟨true, true, true, true⟩] : List Flags).map
    (fun f => (nextOf (exec (.jlt 4) ((State.reset.setPc 0x10).setFlags f))).map (fun t => t.pc)) =
    [some 0x12, some 0x18, some 0x18, some 0x12, some 0x12, some 0x18, some 0x18, some 0x12] := by decide

/-- 95_test_vectors.md 3.6, its table of conditions: offset 4 at 0x0010. -/
theorem test_jle_table : ([⟨false, false, false, true⟩, ⟨false, false, true, true⟩, ⟨false, true, false, true⟩, ⟨false, true, true, true⟩, ⟨true, false, false, true⟩, ⟨true, false, true, true⟩, ⟨true, true, false, true⟩, ⟨true, true, true, true⟩] : List Flags).map
    (fun f => (nextOf (exec (.jle 4) ((State.reset.setPc 0x10).setFlags f))).map (fun t => t.pc)) =
    [some 0x12, some 0x18, some 0x18, some 0x12, some 0x18, some 0x18, some 0x18, some 0x18] := by decide

/-- 95_test_vectors.md 3.6. -/
theorem test_jsr : (nextOf (exec (.jsr 5) ((frame 4 0 []).setPc 6))).map (fun t => (t.stack, t.sp, t.bp, t.pc)) = some ([(4, 8)], 8, 8, 0x10) := by decide

/-- 95_test_vectors.md 3.6. -/
theorem test_jsr_partial : (nextOf (exec (.jsr 1) (frame 65532 16 []))).map (fun t => (t.stack, t.sp, t.bp, t.pc, t.status)) = some ([(65532, 2)], 65534, 16, 0, fatal .stackOverflow 0 65534 65536) := by decide

/-- 95_test_vectors.md 3.6, an odd return address. -/
theorem test_ret : (nextOf (exec .ret ((frame 4 4 [(0, 1), (1, 3), (2, 10)]).setPc 0x20))).map (fun t => (t.sp, t.bp, t.pc)) = some (0, 10, 0x0301) := by decide

/-- 95_test_vectors.md 3.6. -/
theorem test_ret_partial : (nextOf (exec .ret (frame 6 2 [(0, 0x44), (1, 0x33)]))).map (fun t => (t.sp, t.bp, t.pc, t.status)) = some (0, 0x3344, 0, fatal .stackUnderflow 0 0 (-2)) := by decide

/-- 95_test_vectors.md 3.7. -/
theorem test_trap_dump : (nextOf (exec (.trap true 1) (regs2 0 11 7 0xFFFF))).map (fun t => (t.traps, t.status, t.pc)) = some ([{ user := true, code := 1, dump := some (regs2 0 11 7 0xFFFF).regs }], .running, 2) := by decide

/-- 95_test_vectors.md 3.7. -/
theorem test_trap_halts : (nextOf (exec (.trap true 0) (State.reset.setPc 4))).map (fun t => (t.traps, t.status, t.pc)) = some ([{ user := true, code := 0, dump := none }], .halted, 4) := by decide

/-- 95_test_vectors.md 3.8. -/
theorem test_illegal : (nextOf (exec (.illegal 0x123) State.reset)).map (fun t => (t.status, t.pc)) = some (fatal .unknownOpcode 0 0 0xF123, 0) := by decide

/-! ### The step -/

/-- 95_test_vectors.md 3.8. -/
theorem test_step_odd_pc : (nextOf (step ((State.reset.setPc 0x101).setMem [(0x101, 0x05), (0x102, 0x80)]))).map (fun t => (t.reg 0, t.pc)) = some (5, 0x103) := by decide

/-- 95_test_vectors.md 3.8. -/
theorem test_step_wraps : (nextOf (step ((State.reset.setPc 0xFFFE).setMem [(0xFFFE, 0x05), (0xFFFF, 0x80)]))).map (fun t => (t.reg 0, t.pc)) = some (5, 0) := by decide

/-- the fetched word of 30_encoding.md R81. -/
theorem test_step_from_reset_with_word : (nextOf (step (State.reset.withFetchWord 16 0x8005))).map (fun t => (t.reg 0, t.pc)) = some (5, 2) := by decide

/-- 10_state.md R28. -/
theorem test_flags_byte : Flags.toByte ⟨true, false, false, true⟩ = 0x09 := by decide

/-! ### Witnesses: states and operands that meet the hypotheses of each statement -/

/-- The next step of `at' w` runs the word `w` at address 0 of a machine otherwise reset. -/
def at' (w : Nat) : State := State.reset.withFetchWord 16 w

theorem witness_StepKeepsInvariant : State.reset.Inv ∧ ∃ t, step State.reset = .next t :=
  ⟨⟨rfl, rfl, fun _ => by decide⟩, _, rfl⟩

theorem witness_DecodeOfEncodeIsTheInstruction : params.Valid := by
  unfold Config.Valid; decide

theorem witness_DecodeOfEncode_other_parameters :
    ({ params with opcNot := 11, opcLocs := 7, trapUBit := 10 } : Config).Valid := by
  unfold Config.Valid; decide

theorem witness_EncodeOfDecodeKeepsEveryFieldBit : (decodeWord 0xEFFF).WellFormed := by decide

theorem witness_IgnoredBitsAreNotTested :
    (decodeWord 0x7DF0).WellFormed ∧ (tableRow (decodeWord 0x7DF0)).ignored = 0x08FF := by decide

theorem witness_ExactlyOneTableRowMatches :
    (0xFFFF : Word) &&& (tableRow (.illegal 0)).mask = (tableRow (.illegal 0)).value := by decide

theorem witness_OpcodeFifteenIsTheOnlyIllegalEncoding :
    (0xF000 : Word).toNat / 4096 = 15 ∧ (0xEFFF : Word).toNat / 4096 ≠ 15 := by decide

theorem witness_StepExecutesTheFetchedInstruction : (at' 0x8005).status = .running ∧ (at' 0x8005).pc ≠ 0xFFFF ∧
    decodeWord (BitVec.ofNat 16 (((at' 0x8005).mem.read 0).toNat + 256 * ((at' 0x8005).mem.read 1).toNat)) =
      .ldImm 0 5 := by decide

theorem witness_FetchAtLastByteIsFatal :
    (State.reset.setPc 0xFFFF).status = .running ∧ (State.reset.setPc 0xFFFF).pc = 0xFFFF := by decide

theorem witness_NoStepAfterTheRunHasEnded : State.reset.halt.status = .halted ∧
    (State.reset.raise .stackUnderflow (-2)).status = fatal .stackUnderflow 0 0 (-2) := by decide

theorem witness_RunningMachineAlwaysSteps :
    (State.reset.setSp 65534).status = .running ∧ (State.reset.setSp 65534).sp.toNat ≤ 65534 := by decide

theorem witness_TrapChannelIsAppendOnly : (nextOf (step (at' 0xE001))).map (fun t => t.traps.length) = some 1 := by decide

theorem witness_HaltOnlyByTrapCodeZero :
    (nextOf (step (at' 0xE200))).map (fun t => t.status) = some .halted := by decide

theorem witness_FatalReportNamesTheInstruction :
    (nextOf (step (at' 0xA001))).map (fun t => t.status) = some (fatal .stackUnderflow 0 0 (-2)) := by decide

theorem witness_FatalConditionsComeOnlyFromTheirInstructions : State.reset.status = .running ∧
    (nextOf (exec .ret State.reset)).map (fun t => t.status) = some (fatal .stackUnderflow 0 0 (-2)) := by decide

theorem witness_FatalConditionLeavesStateOfSingleCheckInstructions :
    mayStopPartWay (.locs false 1) = false ∧ State.reset.status = .running ∧
    (nextOf (exec (.locs false 1) State.reset)).map (fun t => t.status) =
      some (fatal .allocationOverflow 0 0 (-2)) := by decide

theorem witness_FlagsAreOverwritten : definesFlags (.shl 0 1) = true := by decide

theorem witness_FlagsAreUntouched :
    definesFlags (.ashr 0 1) = false ∧ ∃ t, exec (.ashr 0 1) State.reset = .next t := ⟨by decide, _, rfl⟩

theorem witness_CarryIsNeverRead : ∃ t, exec (.jle 4) (State.reset.setFlags allFlags) = .next t := ⟨_, rfl⟩

theorem witness_CompareFlagLaws : (∃ t, exec (.cmpReg 0 false 1) (regs2 0 1 1 0x8000) = .next t) ∧
    (regs2 0 1 1 0x8000).reg 1 = 0x8000 ∧ (regs2 0 1 1 0x7FFF).reg 1 ≠ 0x8000 :=
  ⟨⟨_, rfl⟩, by decide, by decide⟩

theorem witness_CompareThenBranchTestsSignedOrder : (regs2 0 1 1 0x8001).reg 1 ≠ 0x8000 ∧
    ∃ t, exec (.cmpReg 0 false 1) (regs2 0 1 1 0x8001) = .next t := ⟨by decide, _, rfl⟩

theorem witness_LdBpLoadsFrameSlot :
    (frame 65534 65408 []).sp.toNat ≤ 65534 ∧ ¬ (frame 65534 65408 []).sp.toNat < 65408 + 2 * 63 ∧
    (frame 65534 65409 []).sp.toNat < 65409 + 2 * 63 := by decide

theorem witness_StRegStoresLittleEndianWord : (regs2 2 0xFFFE 0 1).mem.wf = true ∧
    (regs2 2 0xFFFE 0 1).reg 2 ≠ 0xFFFF ∧ (regs2 2 0xFFFF 0 1).reg 2 = 0xFFFF := by decide

theorem witness_StImmStoresBothBytes : (regs2 2 0xFFFE 0 1).mem.wf = true ∧
    (regs2 2 0xFFFE 0 1).reg 2 ≠ 0xFFFF ∧ (regs2 2 0xFFFF 0 1).reg 2 = 0xFFFF := by decide

theorem witness_StBpStoresFrameSlot : (frame 12 8 [(10, 9)]).stack.wf = true ∧ (frame 12 8 []).sp.toNat ≤ 65534 ∧
    (frame 12 8 []).bp.toNat + 2 * 2 ≤ (frame 12 8 []).sp.toNat ∧
    (frame 12 8 []).sp.toNat < (frame 12 8 []).bp.toNat + 2 * 3 := by decide

theorem witness_FrameSlotAcrossRegionEndStops :
    (frame 0xFFFF 65533 []).sp = 0xFFFF ∧ (frame 0xFFFF 65533 []).bp.toNat + 2 * (1 : BitVec 6).toNat = 65535 := by decide

theorem witness_NextFetchSeesTheStore : (regs2 2 2 0 0x8109).status = .running ∧ (regs2 2 2 0 0x8109).mem.wf = true ∧
    (regs2 2 2 0 0x8109).pc.toNat + 2 < 65535 ∧ (regs2 2 2 0 0x8109).reg 2 = (regs2 2 2 0 0x8109).pc + 2 := by decide

theorem witness_PushStacksMaskAscending : State.reset.stack.wf = true ∧ maskCount 0 = 0 ∧
    (frame 65518 0 []).sp.toNat + 2 * maskCount 0xFF ≤ 65534 ∧ 0 < maskCount 0xFF ∧
    65534 < (frame 65520 0 []).sp.toNat + 2 * maskCount 0xFF := by decide

theorem witness_PopUnstacksMaskAscending : (0xFF : BitVec 8) ≠ 0 ∧ 2 * maskCount 0xFF ≤ (frame 16 0 []).sp.toNat ∧
    (frame 15 0 []).sp.toNat < 2 * maskCount 0xFF ∧ (frame 1 0 []).sp.toNat < 2 ∧ ¬ (frame 2 0 []).sp.toNat < 2 := by decide

theorem witness_PushThenPopReversesRegisters : (0x09 : BitVec 8) ≠ 0 ∧ (regs2 0 1 3 2).stack.wf = true ∧
    (regs2 0 1 3 2).sp.toNat + 2 * maskCount 0x09 ≤ 65534 ∧ maskReg 0x09 0 = some 0 ∧ maskReg 0x09 1 = some 3 := by decide

theorem witness_LocsMovesStackPointerByWords :
    (frame 65408 0 []).sp.toNat + 2 * (63 : BitVec 6).toNat ≤ 65534 ∧
    65534 < (frame 65410 0 []).sp.toNat + 2 * (63 : BitVec 6).toNat ∧
    2 * (63 : BitVec 6).toNat ≤ (frame 126 0 []).sp.toNat ∧
    (frame 124 0 []).sp.toNat < 2 * (63 : BitVec 6).toNat := by decide

theorem witness_EvenStackPointersAreKeptByAStep : (at' 0xB102).HostReady ∧
    (nextOf (step (at' 0xB102))).map (fun t => (t.status, t.sp)) = some (.running, 4) ∧ instrAt (at' 0xB102) ≠ .ret :=
  ⟨⟨by decide, by decide, by decide, by decide⟩, by decide, by decide⟩

theorem witness_StackPointerStaysEvenOverRuns : (at' 0xB102).Inv ∧ (at' 0xB102).HostReady ∧
    (stepsFrom 1 (at' 0xB102)).map (fun t => t.status) = some .running :=
  ⟨⟨by decide, by decide, fun _ => by decide⟩, ⟨by decide, by decide, by decide, by decide⟩, by decide⟩

theorem witness_JsrOpensAFrame : (frame 65530 16 []).stack.wf = true ∧ (frame 65530 16 []).sp.toNat ≤ 65530 ∧
    65530 < (frame 65532 16 []).sp.toNat ∧ (frame 65532 16 []).sp.toNat ≤ 65532 ∧
    65532 < (frame 65533 16 []).sp.toNat := by decide

theorem witness_RetClosesTheFrame : 4 ≤ (frame 6 4 []).bp.toNat ∧ 2 ≤ (frame 6 3 []).bp.toNat ∧
    (frame 6 3 []).bp.toNat < 4 ∧ (frame 6 1 []).bp.toNat < 2 := by decide

theorem witness_JsrThenRetRestoresCaller : ∃ t, exec (.jsr 2) (frame 6 2 []) = .next t ∧
    (frame 6 2 []).stack.wf = true ∧ (frame 6 2 []).sp.toNat ≤ 65530 ∧ t.bp = (frame 6 2 []).sp + 4 ∧
    (∀ a, (frame 6 2 []).sp.toNat ≤ a → a < (frame 6 2 []).sp.toNat + 4 → t.stack.read a = t.stack.read a) :=
  ⟨_, rfl, by decide, by decide, by decide, fun _ _ _ => rfl⟩

theorem witness_PcParityIsKeptByAllButRet : (Instr.jsr 1) ≠ .ret ∧ ∃ t, exec (.jsr 1) State.reset = .next t :=
  ⟨by decide, _, rfl⟩

theorem witness_FrameOfRegisterInstructions : destination (.ldMem 3 2) = some 3 ∧
    (∃ t, exec (.ldMem 3 2) State.reset = .next t) ∧ definesFlags (.ldMem 3 2) = false :=
  ⟨by decide, ⟨_, rfl⟩, by decide⟩

theorem witness_FrameOfCompareAndJumps : (∃ t, exec (.cmpReg 0 false 1) State.reset = .next t) ∧
    (∃ t, exec (.cmpImm 0 1) State.reset = .next t) ∧
    isJump (.jmp 3) = true ∧ ∃ t, exec (.jmp 3) State.reset = .next t :=
  ⟨⟨_, rfl⟩, ⟨_, rfl⟩, by decide, _, rfl⟩

theorem witness_FrameOfStores : (∃ t, exec (.stReg 2 0) State.reset = .next t) ∧
    (∃ t, exec (.stImm 2 1) State.reset = .next t) ∧ ∃ t, exec (.stBp 1 0) State.reset = .next t :=
  ⟨⟨_, rfl⟩, ⟨_, rfl⟩, _, rfl⟩

theorem witness_FrameOfStackInstructions : (∃ t, exec (.push 3) State.reset = .next t) ∧
    (∃ t, exec (.pop 3) State.reset = .next t) ∧ (3 : BitVec 8).getLsbD 2 = false ∧
    ∃ t, exec (.locs true 1) State.reset = .next t :=
  ⟨⟨_, rfl⟩, ⟨_, rfl⟩, by decide, _, rfl⟩

theorem witness_FrameOfCallAndReturn : (∃ t, exec (.jsr 3) State.reset = .next t) ∧
    ∃ t, exec .ret (frame 4 4 []) = .next t := ⟨⟨_, rfl⟩, _, rfl⟩

theorem witness_FrameOfTrapAndReservedWords : (∃ t, exec (.trap true 2) State.reset = .next t) ∧
    (2 : BitVec 8) ≠ 0 ∧ ∃ t, exec (.illegal 5) State.reset = .next t := ⟨⟨_, rfl⟩, by decide, _, rfl⟩

end Sys2Proof.Tests
end

/-! ## What every instruction leaves unchanged, and the statements on the state

Each lemma about `Effect` says of one item of the state which instructions can change it (10_state.md
section 1, readers and writers). The frames below are put together from these. -/

section
namespace Sys2Proof.Machine

/-! ### The writers of each item of state -/

/-- The writers of linear memory: ST-reg and ST-imm (10_state.md R29). -/
def writesMem : Instr → Bool
  | .stReg _ _ | .stImm _ _ => true
  | _ => false

/-- The writers of the stack region: ST-bp, PUSH and JSR (10_state.md R30). -/
def writesStack : Instr → Bool
  | .stBp _ _ | .push _ | .jsr _ => true
  | _ => false

/-- The writers of `bp`: JSR and RET (10_state.md R25). -/
def writesBp : Instr → Bool
  | .jsr _ | .ret => true
  | _ => false

/-- The one instruction that sends an event and may halt the run: TRAP (10_state.md R33, R34). -/
def isTrap : Instr → Bool
  | .trap _ _ => true
  | _ => false

/-! ### One frame lemma per item of state -/

theorem Effect.flags_eq {i : Instr} {s t : State} (e : Effect i s t) (hi : definesFlags i = false) :
    t.flags = s.flags := by
  cases e with
  | writesRegFlags _ _ _ hf | writesFlags _ _ hf => rw [hf] at hi; cases hi
  | pushes hu | overflows _ _ hu => exact hu.flags
  | pops hu | underflows _ _ _ hu => exact hu.flags
  | _ => rfl

theorem Effect.mem_eq {i : Instr} {s t : State} (e : Effect i s t) (hi : writesMem i = false) :
    t.mem = s.mem := by
  cases e with
  | storesMem _ _ hst => obtain ⟨_, rfl⟩ | ⟨_, rfl⟩ := hst <;> cases hi
  | pushes hu | overflows _ _ hu => exact hu.mem
  | pops hu | underflows _ _ _ hu => exact hu.mem
  | _ => rfl

theorem Effect.stack_eq {i : Instr} {s t : State} (e : Effect i s t) (hi : writesStack i = false) :
    t.stack = s.stack := by
  cases e with
  | storesStack | pushes | overflows | calls | callOverflows => cases hi
  | pops hu | underflows _ _ _ hu => exact hu.stack
  | _ => rfl

theorem Effect.sameMem {i : Instr} {s t : State} (e : Effect i s t) (hi : writesMem i = false) : SameMem s t :=
  fun a => congrArg (·.read a) (e.mem_eq hi)

theorem Effect.sameStack {i : Instr} {s t : State} (e : Effect i s t) (hi : writesStack i = false) :
    SameStack s t :=
  fun a => congrArg (·.read a) (e.stack_eq hi)

theorem Effect.bp_eq {i : Instr} {s t : State} (e : Effect i s t) (hi : writesBp i = false) :
    t.bp = s.bp := by
  cases e with
  | calls | returns | returnUnderflows => cases hi
  | pushes hu | overflows _ _ hu => exact hu.bp
  | pops hu | underflows _ _ _ hu => exact hu.bp
  | _ => rfl

theorem Effect.traps_eq {i : Instr} {s t : State} (e : Effect i s t) (hi : isTrap i = false) :
    t.traps = s.traps := by
  cases e with
  | halts | traps => cases hi
  | pushes hu | overflows _ _ hu => exact hu.traps
  | pops hu | underflows _ _ _ hu => exact hu.traps
  | _ => rfl

/-- Only TRAP can halt: any other instruction keeps the run status or ends the run by a fatal condition. -/
theorem Effect.status_eq_or_faulted {i : Instr} {s t : State} (e : Effect i s t) (hi : isTrap i = false) :
    t.status = s.status ∨ t.Faulted := by
  cases e with
  | halts | traps => cases hi
  | raises | overflows | underflows | callOverflows | returnUnderflows | returnUnderflowsAtOnce =>
    exact .inr ⟨_, rfl⟩
  | pushes hu => exact .inl hu.status
  | pops hu => exact .inl hu.status
  | _ => exact .inl rfl

/-- An instruction with no destination register writes no register, unless it is POP. -/
theorem Effect.reg_eq {i : Instr} {s t : State} (e : Effect i s t) (hd : destination i = none)
    (hpop : ∀ m, i ≠ .pop m) (r : Reg) : t.reg r = s.reg r := by
  cases e with
  | writesReg _ hd' | writesRegFlags _ _ hd' => rw [hd'] at hd; cases hd
  | discards | pops | underflows => exact absurd rfl (hpop _)
  | pushes hu | overflows _ _ hu => exact hu.reg r
  | _ => rfl

theorem destination_of_isJump {i : Instr} (hj : isJump i = true) : destination i = none := by
  cases i with
  | jmp | jgt | jeq | jge | jlt | jle => rfl
  | _ => cases hj

/-- The three things an instruction with a destination register can do. -/
theorem Effect.of_destination {i : Instr} {d : Reg} {s t : State} (e : Effect i s t)
    (hd : destination i = some d) :
    (∃ v, t = (s.setReg d v).advance) ∨
    (∃ v f, definesFlags i = true ∧ t = ((s.setReg d v).setFlags f).advance) ∨
    (∃ c x, t = s.raise c x) := by
  cases e with
  | writesReg v hd' =>
    obtain rfl : _ = d := Option.some.inj (hd'.symm.trans hd)
    exact .inl ⟨v, rfl⟩
  | writesRegFlags v f hd' hf =>
    obtain rfl : _ = d := Option.some.inj (hd'.symm.trans hd)
    exact .inr (.inl ⟨v, f, hf, rfl⟩)
  | raises x => exact .inr (.inr ⟨_, x, rfl⟩)
  | writesFlags _ hd' => rw [hd'] at hd; cases hd
  | jumps _ hj | falls hj => rw [destination_of_isJump hj] at hd; cases hd
  | storesMem _ _ hst => obtain ⟨_, rfl⟩ | ⟨_, rfl⟩ := hst <;> cases hd
  | _ => cases hd

/-- Where any instruction but RET leaves `pc`. -/
theorem Effect.pc_cases {i : Instr} {s t : State} (e : Effect i s t) (hi : i ≠ .ret) :
    t.pc = s.pc ∨ t.pc = s.pc + 2 ∨ ∃ off, t.pc = branchTarget s.pc off := by
  cases e with
  | returns | returnUnderflows | returnUnderflowsAtOnce => exact absurd rfl hi
  | jumps off | calls off => exact .inr (.inr ⟨off, rfl⟩)
  | raises | callOverflows | halts => exact .inl rfl
  | overflows _ _ hu => exact .inl hu.pc
  | underflows _ _ _ hu => exact .inl hu.pc
  | pushes hu => exact .inr (.inl (congrArg (· + 2) hu.pc))
  | pops hu => exact .inr (.inl (congrArg (· + 2) hu.pc))
  | _ => exact .inr (.inl rfl)

/-! ### Flags overwritten wholesale -/

theorem addBody_setFlags (d : Reg) (op2 : Word) (s : State) (f : Flags) :
    addBody d op2 (s.setFlags f) = addBody d op2 s := rfl

theorem cmpBody_setFlags (d : Reg) (op2 : Word) (s : State) (f : Flags) :
    cmpBody d op2 (s.setFlags f) = cmpBody d op2 s := rfl

theorem execShl_setFlags (d : Reg) (n : BitVec 4) (s : State) (f : Flags) :
    execShl d n (s.setFlags f) = execShl d n s := rfl

/-- ADD, SUB, CMP and SHL take no notice of the flags before them. -/
theorem exec_setFlags_of_definesFlags {i : Instr} (s : State) (f : Flags) (hi : definesFlags i = true) :
    exec i (s.setFlags f) = exec i s := by
  cases i with
  | addReg d _ src => exact congrArg Res.andAdvance (addBody_setFlags d (s.reg src) s f)
  | addImm d imm => exact congrArg Res.andAdvance (addBody_setFlags d (zext6 imm) s f)
  | subReg d _ src => exact congrArg Res.andAdvance (addBody_setFlags d (neg16 (s.reg src)) s f)
  | subImm d imm => exact congrArg Res.andAdvance (addBody_setFlags d (neg16 (zext6 imm)) s f)
  | cmpReg d _ src => exact congrArg Res.andAdvance (cmpBody_setFlags d (s.reg src) s f)
  | cmpImm d imm => exact congrArg Res.andAdvance (cmpBody_setFlags d (zext6 imm) s f)
  | shl d n => exact execShl_setFlags d n s f
  | _ => cases hi

/-! ### Parity of `pc` -/

theorem toNat_add_two_mod_two (w : Word) : (w + 2).toNat % 2 = w.toNat % 2 := by bv_omega

/-- A branch offset counts words, so a target is odd exactly when the branch's own address is. -/
theorem toNat_branchTarget_mod_two (pc : Word) (off : BitVec 9) :
    (branchTarget pc off).toNat % 2 = pc.toNat % 2 := by
  rw [branchTarget, BitVec.toNat_ofInt]
  omega

/-! ### The stack bytes PUSH and JSR leave, the registers POP leaves -/

/-- Completed pushes write only from the old `sp` up to the new one. -/
theorem Pushed.read_outside {rs : List Reg} {s t : State} (h : Pushed rs s t) {a : Nat}
    (ha : a < s.sp.toNat ∨ t.sp.toNat ≤ a) : t.stack.read a = s.stack.read a :=
  h.other a (h.sp ▸ ha)

/-- PUSH writes only the stack bytes from the old `sp` up to the new one (44_stack.md R202). -/
theorem execPush_read_outside {m : BitVec 8} {s t : State} (h : execPush m s = .next t) {a : Nat}
    (ha : a < s.sp.toNat ∨ t.sp.toNat ≤ a) : t.stack.read a = s.stack.read a := by
  obtain ⟨u, hu, -, rfl⟩ | ⟨u, n, -, hu, rfl⟩ := execPush_cases h
  · exact hu.read_outside ha
  · exact hu.read_outside ha

/-- JSR writes only the stack bytes from the old `sp` up to the new one (45_branch.md R227). -/
theorem execJsr_read_outside {off : BitVec 9} {s t : State} (h : execJsr off s = .next t) {a : Nat}
    (ha : a < s.sp.toNat ∨ t.sp.toNat ≤ a) : t.stack.read a = s.stack.read a := by
  obtain ⟨hsp, rfl⟩ | ⟨-, hsp, rfl⟩ | ⟨-, rfl⟩ := execJsr_cases h
  · have h4 : (s.sp + 4).toNat = s.sp.toNat + 4 := by bv_omega
    simp only [State.setPc_sp, State.setBp_sp, State.setSp_sp, h4] at ha
    exact (Memory.read_writeWord_ne _ _ (by omega) (by omega)).trans
      (Memory.read_writeWord_ne _ _ (by omega) (by omega))
  · simp only [State.raise_sp, State.setSp_sp, toNat_add_two (show s.sp.toNat + 2 ≤ 65535 by omega)] at ha
    exact Memory.read_writeWord_ne _ _ (by omega) (by omega)
  · rfl

/-- POP writes only the registers of its mask (44_stack.md R203). -/
theorem execPop_reg_of_not_masked {m : BitVec 8} {s t : State} (h : execPop m s = .next t) {r : Reg}
    (hr : m.getLsbD r.val = false) : t.reg r = s.reg r := by
  have hm : r ∉ maskRegs m := fun hmem =>
    Bool.false_ne_true (hr.symm.trans ((mem_maskRegs m r).1 hmem))
  obtain ⟨-, -, rfl⟩ | ⟨-, -, rfl⟩ | ⟨u, hu, -, rfl⟩ | ⟨u, n, -, -, hu, rfl⟩ := execPop_cases h
  · rfl
  · rfl
  · exact hu.other r hm
  · exact hu.other r fun hmem => hm (List.mem_of_mem_take hmem)

/-! ### The obligations -/

/-- Settles O2: reset has both regions empty and `sp` 0. -/
theorem resetMeetsInvariant : Obligations.ResetMeetsInvariant :=
  ⟨rfl, rfl, fun _ => Nat.zero_le _⟩

/-- Settles O20: the writers of the flags do not read them, and no other effect touches them. -/
theorem flagsAreOverwrittenWholesaleOrUntouched : Obligations.FlagsAreOverwrittenWholesaleOrUntouched :=
  ⟨fun _ s f hi => exec_setFlags_of_definesFlags s f hi, fun _ _ _ hi h => (exec_effect h).flags_eq hi⟩

/-- Settles O53: `pc` stays, moves by 2, or moves by twice a branch offset. -/
theorem pcParityIsKeptByAllButRet : Obligations.PcParityIsKeptByAllButRet := by
  intro i s t hi h
  obtain hpc | hpc | ⟨off, hpc⟩ := (exec_effect h).pc_cases hi <;> rw [hpc]
  · exact toNat_add_two_mod_two s.pc
  · exact toNat_branchTarget_mod_two s.pc off

/-- Settles O55, from the three effects an instruction with a destination register can have. -/
theorem frameOfRegisterInstructions : Obligations.FrameOfRegisterInstructions := by
  intro i d s t hd h
  obtain ⟨v, rfl⟩ | ⟨v, f, hf, rfl⟩ | ⟨c, x, rfl⟩ := (exec_effect h).of_destination hd
  · exact ⟨fun r hr => s.reg_setReg_ne v hr, rfl, rfl, rfl, fun _ => rfl, fun _ => rfl, fun _ => rfl, .inl rfl⟩
  · exact ⟨fun r hr => s.reg_setReg_ne v hr, rfl, rfl, rfl, fun _ => rfl, fun _ => rfl,
      fun hf' => absurd hf (by simp [hf']), .inl rfl⟩
  · exact ⟨fun _ _ => rfl, rfl, rfl, rfl, fun _ => rfl, fun _ => rfl, fun _ => rfl, .inr ⟨_, rfl⟩⟩

/-- Settles O58: what PUSH, POP and LOCS write, with the frame lemma of every item they do not. -/
theorem frameOfStackInstructions : Obligations.FrameOfStackInstructions := by
  refine ⟨fun m s t h => ?push, fun m s t h => ?pop, fun alloc n s t h => ?locs⟩
  all_goals have e := exec_effect h
  case push =>
    exact ⟨fun _ => execPush_read_outside h, e.sameMem rfl, e.reg_eq rfl nofun,
      e.bp_eq rfl, e.flags_eq rfl, e.traps_eq rfl, e.status_eq_or_faulted rfl⟩
  case pop =>
    exact ⟨fun _ => execPop_reg_of_not_masked h, e.sameMem rfl, e.sameStack rfl, e.bp_eq rfl, e.flags_eq rfl,
      e.traps_eq rfl, e.status_eq_or_faulted rfl⟩
  case locs =>
    exact ⟨e.reg_eq rfl nofun, e.sameMem rfl, e.sameStack rfl, e.bp_eq rfl, e.flags_eq rfl, e.traps_eq rfl,
      e.status_eq_or_faulted rfl⟩

/-- Settles O59: what JSR and RET write, with the frame lemma of every item they do not. -/
theorem frameOfCallAndReturn : Obligations.FrameOfCallAndReturn := by
  refine ⟨fun off s t h => ?jsr, fun s t h => ?ret⟩
  all_goals have e := exec_effect h
  case jsr =>
    exact ⟨fun _ => execJsr_read_outside h, e.sameMem rfl, e.reg_eq rfl nofun,
      e.flags_eq rfl, e.traps_eq rfl, e.status_eq_or_faulted rfl⟩
  case ret =>
    exact ⟨e.reg_eq rfl nofun, e.sameMem rfl, e.sameStack rfl, e.flags_eq rfl, e.traps_eq rfl,
      e.status_eq_or_faulted rfl⟩

end Sys2Proof.Machine
end

/-! ## Loads and stores of linear memory (20_memory.md)

The words of the statements (`StoredWord`, `wordAt`, `endedBy`) are tied to the model's operations, LD-mem and
the ST forms each get an equation per case, and the obligations are put together from these. -/

section
namespace Sys2Proof.Machine

/-! ### The words of the statements in the model's terms -/

theorem wordAt_eq_readWord (m : Memory) (a : Nat) : wordAt m a = m.readWord a :=
  (m.readWord_eq_ofNat a).symm

theorem endedBy_eq_raise (s : State) (c : Condition) (value : Int) : endedBy s c value = s.raise c value := rfl

/-- A word store in a canonical region stores the word little-endian (20_memory.md R51). -/
theorem Memory.storedWord_writeWord {m : Memory} {a : Nat} (v : Word) (ha : a < 65536) (hm : m.wf = true) :
    StoredWord m (m.writeWord a v) a v := by
  refine ⟨?low, ?high, fun x hx hx' => m.read_writeWord_ne v hx hx'⟩
  case low => rw [Memory.read_writeWord_lo v hm, toNat_loByte]
  case high => rw [Memory.read_writeWord_hi v ha hm, toNat_hiByte]

/-! ### LD-mem and ST, an equation per case -/

theorem exec_ldMem_of_ne (d : Reg) {src : Reg} {s : State} (h : s.reg src ≠ 0xFFFF) :
    exec (.ldMem d src) s = .next (s.setReg d (s.mem.readWord (s.reg src).toNat)).advance := by
  change execLdMem d src s = _
  rw [execLdMem, memRead_of_ne s h, Res.bind_ok, Res.andAdvance_ok]

theorem exec_ldMem_ffff (d : Reg) {src : Reg} {s : State} (h : s.reg src = 0xFFFF) :
    exec (.ldMem d src) s = .next (s.raise .memoryOutOfRange 65535) := by
  change execLdMem d src s = _
  rw [execLdMem, h, memRead_ffff, Res.bind_ended, Res.andAdvance_ended]

theorem exec_stReg (a src : Reg) (s : State) :
    exec (.stReg a src) s = (memWrite (s.reg a) (s.reg src) s).andAdvance := rfl

theorem exec_stImm (a : Reg) (imm : BitVec 6) (s : State) :
    exec (.stImm a imm) s = (memWrite (s.reg a) (zext6 imm) s).andAdvance := rfl

theorem memWrite_andAdvance_of_ne {addr : Word} (v : Word) (s : State) (h : addr ≠ 0xFFFF) :
    (memWrite addr v s).andAdvance = .next (s.setMem (s.mem.writeWord addr.toNat v)).advance := by
  rw [memWrite_of_ne v s h, Res.andAdvance_ok]

theorem memWrite_andAdvance_ffff {addr : Word} (v : Word) (s : State) (h : addr = 0xFFFF) :
    (memWrite addr v s).andAdvance = .next (s.raise .memoryOutOfRange 65535) := by
  rw [h, memWrite_ffff, Res.andAdvance_ended]

/-- ST-reg and ST-imm differ only in the value they store at `x[a]`. -/
theorem exec_store_eq_memWrite {a src : Reg} {imm : BitVec 6} {i : Instr} (s : State)
    (hi : i = .stReg a src ∨ i = .stImm a imm) : ∃ v, exec i s = (memWrite (s.reg a) v s).andAdvance := by
  obtain rfl | rfl := hi
  · exact ⟨_, exec_stReg a src s⟩
  · exact ⟨_, exec_stImm a imm s⟩

/-! ### The obligations -/

/-- Settles O36: off 0xFFFF the store is the region's word store, at 0xFFFF it is fatal. -/
theorem stRegStoresLittleEndianWord : Obligations.StRegStoresLittleEndianWord := by
  intro a src s hm
  rw [exec_stReg, endedBy_eq_raise]
  exact ⟨fun ha => ⟨_, Memory.storedWord_writeWord _ (s.reg a).isLt hm, memWrite_andAdvance_of_ne _ s ha⟩,
    memWrite_andAdvance_ffff _ s⟩

/-- Settles O57, from the two effects a store can have: its word store, or a fatal condition. -/
theorem frameOfStores : Obligations.FrameOfStores := by
  refine ⟨fun a src imm i s t hi h => ?mem, fun src off s t h => ?stack⟩
  case mem =>
    obtain ⟨v, hv⟩ := exec_store_eq_memWrite s hi
    obtain ⟨-, rfl⟩ | ⟨-, rfl⟩ := memWrite_advance_cases (hv.symm.trans h)
    · exact ⟨fun _ hx hx' => s.mem.read_writeWord_ne v hx hx', fun _ => rfl, fun _ => rfl, rfl, rfl, rfl, rfl,
        .inl rfl⟩
    · exact ⟨fun _ _ _ => rfl, fun _ => rfl, fun _ => rfl, rfl, rfl, rfl, rfl, .inr ⟨_, rfl⟩⟩
  case stack =>
    obtain ⟨-, -, rfl⟩ | ⟨-, rfl⟩ := execStBp_cases h
    · exact ⟨fun _ hx hx' => s.stack.read_writeWord_ne (s.reg src) hx hx', fun _ => rfl, fun _ => rfl, rfl, rfl,
        rfl, rfl, .inl rfl⟩
    · exact ⟨fun _ _ _ => rfl, fun _ => rfl, fun _ => rfl, rfl, rfl, rfl, rfl, .inr ⟨_, rfl⟩⟩

/-- Settles O35: off 0xFFFF the load is the region's word read, at 0xFFFF it is fatal. -/
theorem ldMemLoadsLittleEndianWord : Obligations.LdMemLoadsLittleEndianWord := by
  intro d src s
  rw [wordAt_eq_readWord, endedBy_eq_raise]
  split
  case isTrue h => exact exec_ldMem_ffff d h
  case isFalse h => exact exec_ldMem_of_ne d h

end Sys2Proof.Machine
end

/-! ## Decoding and the step (30_encoding.md, 40_execution_cycle.md)

A decoded word stands in one of sixteen cases, one per opcode (`DecodesBy`); what holds of every decoded word is
proved along them. That the opcode table is unambiguous is a fact about its 34 rows alone (`tableRows_disjoint`).
That a running machine steps is the absence of a model fault in every operation (`Res.NoFault`). -/

section
namespace Sys2Proof

/-! ### The decoder, a case per opcode -/

/-- What a word decodes to, by its opcode (30_encoding.md R82, R97; opcode numbers of D1). -/
inductive DecodesBy (w : Word) : Instr → Prop where
  | add (h : fOpcode w = 0#4) : DecodesBy w (decodeArith .addReg .addImm w)
  | sub (h : fOpcode w = 1#4) : DecodesBy w (decodeArith .subReg .subImm w)
  | shl (h : fOpcode w = 2#4) : DecodesBy w (.shl (fRegHi w) (fAmount w))
  | ashr (h : fOpcode w = 3#4) : DecodesBy w (.ashr (fRegHi w) (fAmount w))
  | lshr (h : fOpcode w = 4#4) : DecodesBy w (.lshr (fRegHi w) (fAmount w))
  | and (h : fOpcode w = 5#4) : DecodesBy w (decodeArith .andReg .andImm w)
  | or (h : fOpcode w = 6#4) : DecodesBy w (decodeArith .orReg .orImm w)
  | not (h : fOpcode w = 7#4) : DecodesBy w (.not (fRegHi w))
  | ld (h : fOpcode w = 8#4) : DecodesBy w (decodeLd w)
  | st (h : fOpcode w = 9#4) : DecodesBy w (decodeSt w)
  | stack (h : fOpcode w = 10#4) : DecodesBy w (decodeStack w)
  | locs (h : fOpcode w = 11#4) : DecodesBy w (.locs (w.getLsbD 8) (fSix w))
  | cmp (h : fOpcode w = 12#4) : DecodesBy w (decodeArith .cmpReg .cmpImm w)
  | br (h : fOpcode w = 13#4) : DecodesBy w (decodeBr w)
  | trap (h : fOpcode w = 14#4) : DecodesBy w (.trap (w.getLsbD 9) (fEight w))
  | reserved (h : fOpcode w = 15#4) : DecodesBy w (.illegal (w.extractLsb' 0 12))

/-- The decoder follows the opcode. -/
theorem decodesBy_decodeWord (w : Word) : DecodesBy w (decodeWord w) := by
  unfold decodeWord decodeWith
  by_cases hnot : fOpcode w = params.opcNot
  · rw [if_pos hnot]; exact .not hnot
  by_cases hlocs : fOpcode w = params.opcLocs
  · rw [if_neg hnot, if_pos hlocs]; exact .locs hlocs
  by_cases hbr : fOpcode w = params.opcBr
  · rw [if_neg hnot, if_neg hlocs, if_pos hbr]; exact .br hbr
  by_cases htrap : fOpcode w = params.opcTrap
  · rw [if_neg hnot, if_neg hlocs, if_neg hbr, if_pos htrap]; exact .trap htrap
  rw [if_neg hnot, if_neg hlocs, if_neg hbr, if_neg htrap]
  have h7 : fOpcode w ≠ 7#4 := hnot
  have h11 : fOpcode w ≠ 11#4 := hlocs
  have h13 : fOpcode w ≠ 13#4 := hbr
  have h14 : fOpcode w ≠ 14#4 := htrap
  split
  case h_1 h => exact .add (BitVec.eq_of_toNat_eq h)
  case h_2 h => exact .sub (BitVec.eq_of_toNat_eq h)
  case h_3 h => exact .shl (BitVec.eq_of_toNat_eq h)
  case h_4 h => exact .ashr (BitVec.eq_of_toNat_eq h)
  case h_5 h => exact .lshr (BitVec.eq_of_toNat_eq h)
  case h_6 h => exact .and (BitVec.eq_of_toNat_eq h)
  case h_7 h => exact .or (BitVec.eq_of_toNat_eq h)
  case h_8 h => exact .ld (BitVec.eq_of_toNat_eq h)
  case h_9 h => exact .st (BitVec.eq_of_toNat_eq h)
  case h_10 h => exact .stack (BitVec.eq_of_toNat_eq h)
  case h_11 h => exact .cmp (BitVec.eq_of_toNat_eq h)
  case h_12 =>
    simp only [imp_false] at *
    exact .reserved (by bv_omega)

theorem fOpcode_toNat (w : Word) : (fOpcode w).toNat = w.toNat / 4096 := by
  have := w.isLt
  simp only [fOpcode, BitVec.extractLsb'_toNat, Nat.shiftRight_eq_div_pow]
  omega

theorem fOpcode_eq_fifteen_iff (w : Word) : fOpcode w = 15#4 ↔ w.toNat / 4096 = 15 := by
  rw [← fOpcode_toNat, BitVec.toNat_eq]
  rfl

/-! ### Well-formedness of decoded words -/

theorem wf_decodeArith {reg : Reg → Bool → Reg → Instr} {imm : Reg → BitVec 6 → Instr} (w : Word)
    (hreg : ∀ d sgn s, (reg d sgn s).wf = true) (himm : ∀ d n, (imm d n).wf = true) :
    (decodeArith reg imm w).wf = true := by
  unfold decodeArith
  split
  · exact hreg _ _ _
  · exact himm _ _

theorem wf_decodeLd (w : Word) : (decodeLd w).wf = true := by
  unfold decodeLd
  repeat' split
  all_goals rfl

theorem wf_decodeSt (w : Word) : (decodeSt w).wf = true := by
  unfold decodeSt
  repeat' split
  all_goals rfl

theorem wf_decodeStack (w : Word) : (decodeStack w).wf = true := by
  unfold decodeStack
  split <;> rfl

theorem wf_decodeBr (w : Word) : (decodeBr w).wf = true := by
  unfold decodeBr
  split <;> rfl

/-- A word of any opcode but 15 decodes to a defined instruction (30_encoding.md R96, R97). -/
theorem DecodesBy.wf {w : Word} {i : Instr} (hd : DecodesBy w i) (h15 : fOpcode w ≠ 15#4) : i.wf = true := by
  cases hd with
  | add | sub | and | or | cmp => exact wf_decodeArith w (fun _ _ _ => rfl) (fun _ _ => rfl)
  | ld => exact wf_decodeLd w
  | st => exact wf_decodeSt w
  | stack => exact wf_decodeStack w
  | br => exact wf_decodeBr w
  | reserved h => exact absurd h h15
  | _ => rfl

theorem decodeWord_of_fOpcode_fifteen {w : Word} (h : fOpcode w = 15#4) :
    decodeWord w = .illegal (w.extractLsb' 0 12) := by
  simp [decodeWord, decodeWith, h, params]

theorem not_wellFormed_decodeWord_iff (w : Word) : ¬ (decodeWord w).WellFormed ↔ fOpcode w = 15#4 := by
  constructor
  · intro hwf
    by_contra h15
    exact hwf ((decodesBy_decodeWord w).wf h15)
  · intro h
    rw [decodeWord_of_fOpcode_fifteen h]
    exact Bool.false_ne_true

/-! ### The bits a row of the opcode table tests -/

/-- The word selects the row (30_encoding.md, preamble). -/
def TableRow.Matches (r : TableRow) (w : Word) : Prop := w &&& r.mask = r.value

/-- Mask 0xF000: the opcode. -/
theorem and_F000 (w : Word) : w &&& 0xF000 = fOpcode w ++ 0#12 := by
  apply BitVec.eq_of_getLsbD_eq
  intro k hk
  simp only [fOpcode, BitVec.getLsbD_and, BitVec.getLsbD_append, BitVec.getLsbD_extractLsb']
  interval_cases k <;> simp

/-- Mask 0xF800: the opcode and bit 11. -/
theorem and_F800 (w : Word) : w &&& 0xF800 = fOpcode w ++ BitVec.ofBool (w.getLsbD 11) ++ 0#11 := by
  apply BitVec.eq_of_getLsbD_eq
  intro k hk
  simp only [fOpcode, BitVec.getLsbD_and, BitVec.getLsbD_append, BitVec.getLsbD_extractLsb']
  interval_cases k <;> simp

/-- Mask 0xF840: the opcode and bits 11 and 6. -/
theorem and_F840 (w : Word) : w &&& 0xF840 =
    fOpcode w ++ BitVec.ofBool (w.getLsbD 11) ++ 0#4 ++ BitVec.ofBool (w.getLsbD 6) ++ 0#6 := by
  apply BitVec.eq_of_getLsbD_eq
  intro k hk
  simp only [fOpcode, BitVec.getLsbD_and, BitVec.getLsbD_append, BitVec.getLsbD_extractLsb']
  interval_cases k <;> simp

/-- Mask 0xF100: the opcode and bit 8. -/
theorem and_F100 (w : Word) : w &&& 0xF100 = fOpcode w ++ 0#3 ++ BitVec.ofBool (w.getLsbD 8) ++ 0#8 := by
  apply BitVec.eq_of_getLsbD_eq
  intro k hk
  simp only [fOpcode, BitVec.getLsbD_and, BitVec.getLsbD_append, BitVec.getLsbD_extractLsb']
  interval_cases k <;> simp

/-- Mask 0xFE00: the opcode and the condition. -/
theorem and_FE00 (w : Word) : w &&& 0xFE00 = fOpcode w ++ fCond w ++ 0#9 := by
  apply BitVec.eq_of_getLsbD_eq
  intro k hk
  simp only [fOpcode, fCond, BitVec.getLsbD_and, BitVec.getLsbD_append, BitVec.getLsbD_extractLsb']
  interval_cases k <;> simp

/-! ### The row of the decoded instruction matches -/

theorem matches_of_fOpcode {w : Word} {r : TableRow} {op : BitVec 4} (h : fOpcode w = op)
    (hm : r.mask = 0xF000) (hv : r.value = op ++ 0#12) : r.Matches w := by
  rw [TableRow.Matches, hm, hv, and_F000, h]

/-- Format A: bit 11 tells the two rows of an opcode apart (R83). -/
theorem matches_decodeArith {reg : Reg → Bool → Reg → Instr} {imm : Reg → BitVec 6 → Instr} {w : Word}
    {op : BitVec 4} {x y : Word} (h : fOpcode w = op)
    (hreg : ∀ d sgn s, tableRow (reg d sgn s) = ⟨op ++ 1#1 ++ 0#11, 0xF800, x⟩)
    (himm : ∀ d n, tableRow (imm d n) = ⟨op ++ 0#1 ++ 0#11, 0xF800, y⟩) :
    (tableRow (decodeArith reg imm w)).Matches w := by
  unfold decodeArith TableRow.Matches
  split
  case isTrue h11 => rw [hreg, and_F800, h, h11]; rfl
  case isFalse h11 => rw [himm, and_F800, h, Bool.eq_false_of_not_eq_true h11]; rfl

/-- Format L: bits 11 and 6 (R85). -/
theorem matches_decodeLd {w : Word} (h : fOpcode w = 8#4) : (tableRow (decodeLd w)).Matches w := by
  unfold decodeLd TableRow.Matches
  cases h11 : w.getLsbD 11 <;> cases h6 : w.getLsbD 6 <;> exact (and_F840 w).trans (by rw [h, h11, h6]; rfl)

/-- Format T: bit 11, and bit 6 when it is clear (R86). -/
theorem matches_decodeSt {w : Word} (h : fOpcode w = 9#4) : (tableRow (decodeSt w)).Matches w := by
  unfold decodeSt TableRow.Matches
  cases h11 : w.getLsbD 11 with
  | true => exact (and_F800 w).trans (by rw [h, h11]; rfl)
  | false => cases h6 : w.getLsbD 6 <;> exact (and_F840 w).trans (by rw [h, h11, h6]; rfl)

/-- Format K: bit 8 (R87). -/
theorem matches_decodeStack {w : Word} (h : fOpcode w = 10#4) : (tableRow (decodeStack w)).Matches w := by
  unfold decodeStack TableRow.Matches
  cases h8 : w.getLsbD 8 <;> exact (and_F100 w).trans (by rw [h, h8]; rfl)

theorem matches_of_fCond {w : Word} {r : TableRow} {c : BitVec 3} (h : fOpcode w = 13#4)
    (hc : (fCond w).toNat = c.toNat) (hm : r.mask = 0xFE00) (hv : r.value = 13#4 ++ c ++ 0#9) : r.Matches w := by
  rw [TableRow.Matches, hm, hv, and_FE00, h, BitVec.eq_of_toNat_eq hc]

/-- Format B: the condition field (R89). -/
theorem matches_decodeBr {w : Word} (h : fOpcode w = 13#4) : (tableRow (decodeBr w)).Matches w := by
  have hlt := (fCond w).isLt
  unfold decodeBr
  split
  case h_1 hc => exact matches_of_fCond (c := 0) h hc rfl rfl
  case h_2 hc => exact matches_of_fCond (c := 1) h hc rfl rfl
  case h_3 hc => exact matches_of_fCond (c := 2) h hc rfl rfl
  case h_4 hc => exact matches_of_fCond (c := 3) h hc rfl rfl
  case h_5 hc => exact matches_of_fCond (c := 4) h hc rfl rfl
  case h_6 hc => exact matches_of_fCond (c := 5) h hc rfl rfl
  case h_7 hc => exact matches_of_fCond (c := 6) h hc rfl rfl
  case h_8 =>
    simp only [imp_false] at *
    exact matches_of_fCond (c := 7) h (show _ = 7 by omega) rfl rfl

/-- A word matches the row of what it decodes to. -/
theorem DecodesBy.matches {w : Word} {i : Instr} (hd : DecodesBy w i) : (tableRow i).Matches w := by
  cases hd with
  | add h | sub h | and h | or h | cmp h => exact matches_decodeArith h (fun _ _ _ => rfl) (fun _ _ => rfl)
  | ld h => exact matches_decodeLd h
  | st h => exact matches_decodeSt h
  | stack h => exact matches_decodeStack h
  | br h => exact matches_decodeBr h
  | shl h | ashr h | lshr h | not h | locs h | trap h | reserved h => exact matches_of_fOpcode h rfl rfl

/-! ### The rows are disjoint -/

/-- One instruction for each row of the opcode table. -/
def rowInstrs : List Instr :=
  [.addReg 0 false 0, .addImm 0 0, .subReg 0 false 0, .subImm 0 0, .andReg 0 false 0, .andImm 0 0,
   .orReg 0 false 0, .orImm 0 0, .cmpReg 0 false 0, .cmpImm 0 0, .shl 0 0, .ashr 0 0, .lshr 0 0, .not 0,
   .ldImm 0 0, .ldBp 0 0, .ldReg 0 0, .ldMem 0 0, .stReg 0 0, .stImm 0 0, .stBp 0 0, .push 0, .pop 0,
   .locs false 0, .jmp 0, .jgt 0, .jeq 0, .jge 0, .jlt 0, .jsr 0, .jle 0, .ret, .trap false 0, .illegal 0]

/-- The rows of the opcode table. -/
def tableRows : List TableRow := rowInstrs.map tableRow

theorem tableRow_mem_tableRows (i : Instr) : tableRow i ∈ tableRows := by
  cases i <;> simp [tableRows, rowInstrs, tableRow]

/-- Two rows agree on the bits both of them test. -/
def TableRow.Compatible (r r' : TableRow) : Prop := r.value &&& r'.mask = r'.value &&& r.mask

theorem TableRow.Matches.compatible {r r' : TableRow} {w : Word} (h : r.Matches w) (h' : r'.Matches w) :
    r.Compatible r' := by
  rw [Compatible, ← h, ← h', BitVec.and_assoc, BitVec.and_assoc, BitVec.and_comm r.mask]

/-- Any two different rows differ in a bit that both of them test. -/
theorem tableRows_disjoint : ∀ r ∈ tableRows, ∀ r' ∈ tableRows, r.Compatible r' → r = r' := by
  unfold TableRow.Compatible
  decide

end Sys2Proof

namespace Sys2Proof.Machine

/-! ### Operations that meet no fault of the model -/

/-- The operation is complete or ends the run by a fatal condition of the spec. -/
def Res.NoFault {α : Type} (r : Res α) : Prop := ∀ f, r ≠ .fault f

theorem Res.noFault_ok {α : Type} (a : α) (s : State) : (Res.ok a s).NoFault := nofun

theorem Res.noFault_ended {α : Type} (s : State) : (Res.ended s : Res α).NoFault := nofun

theorem Res.NoFault.bind {α β : Type} {r : Res α} {k : α → State → Res β} (hr : r.NoFault)
    (hk : ∀ a s, r = .ok a s → (k a s).NoFault) : (r.bind k).NoFault := by
  cases r with
  | ok a s => exact hk a s rfl
  | ended s => exact noFault_ended s
  | fault f => exact absurd rfl (hr f)

theorem Res.NoFault.andAdvance {r : Res Unit} (hr : r.NoFault) : ∃ t, r.andAdvance = .next t := by
  cases r with
  | ok u s => exact ⟨_, rfl⟩
  | ended s => exact ⟨_, rfl⟩
  | fault f => exact absurd rfl (hr f)

theorem Res.NoFault.andJump {r : Res Word} (hr : r.NoFault) : ∃ t, r.andJump = .next t := by
  cases r with
  | ok w s => exact ⟨_, rfl⟩
  | ended s => exact ⟨_, rfl⟩
  | fault f => exact absurd rfl (hr f)

theorem memRead_noFault (addr : Word) (s : State) : (memRead addr s).NoFault := by
  unfold memRead
  split
  · exact Res.noFault_ended _
  · exact Res.noFault_ok _ _

theorem memWrite_noFault (addr v : Word) (s : State) : (memWrite addr v s).NoFault := by
  unfold memWrite
  split
  · exact Res.noFault_ended _
  · exact Res.noFault_ok _ _

theorem push_noFault (v : Word) (s : State) : (push v s).NoFault := by
  by_cases h : s.sp.toNat + 2 ≤ 65534
  · rw [push_of_le v h]; exact Res.noFault_ok _ _
  · rw [push_of_gt v (by omega)]; exact Res.noFault_ended _

theorem pop_noFault (s : State) : (pop s).NoFault := by
  by_cases h : 2 ≤ s.sp.toNat
  · rw [pop_of_ge h]; exact Res.noFault_ok _ _
  · rw [pop_of_lt (by omega)]; exact Res.noFault_ended _

theorem pushAll_noFault (rs : List Reg) (s : State) : (pushAll rs s).NoFault := by
  induction rs generalizing s with
  | nil => exact Res.noFault_ok _ _
  | cons r rs ih => exact (push_noFault _ s).bind fun _ t _ => ih t

theorem popAll_noFault (rs : List Reg) (s : State) : (popAll rs s).NoFault := by
  induction rs generalizing s with
  | nil => exact Res.noFault_ok _ _
  | cons r rs ih => exact (pop_noFault s).bind fun _ t _ => ih _

/-- With `sp` in its range a base-pointer-relative access that R180 admits finds both its bytes (20_memory.md R54). -/
theorem bpEa_bind_noFault {α : Type} {off : BitVec 6} {s : State} {k : Nat → State → Res α}
    (hsp : s.sp.toNat ≤ 65534) (hk : ∀ ea, ea < 65535 → (k ea s).NoFault) : ((bpEa off s).bind k).NoFault := by
  by_cases h : bpOffset s.bp off ≤ s.sp.toNat
  · rw [bpEa_of_le h]; exact hk _ (by omega)
  · rw [bpEa_of_gt (by omega)]; exact Res.noFault_ended _

theorem allocate_noFault (k : Nat) (s : State) : (allocate k s).NoFault := by
  unfold allocate
  split
  · exact Res.noFault_ended _
  · exact Res.noFault_ok _ _

theorem deallocate_noFault (k : Nat) (s : State) : (deallocate k s).NoFault := by
  unfold deallocate
  split
  · exact Res.noFault_ended _
  · exact Res.noFault_ok _ _

/-! ### Every instruction answers a next state -/

theorem branchIf_answers (cond : Bool) (off : BitVec 9) (s : State) : ∃ t, branchIf cond off s = .next t := by
  cases cond with
  | true => exact ⟨_, rfl⟩
  | false => exact ⟨_, rfl⟩

theorem execLdBp_answers (d : Reg) (off : BitVec 6) {s : State} (hsp : s.sp.toNat ≤ 65534) :
    ∃ t, execLdBp d off s = .next t := by
  refine (bpEa_bind_noFault hsp fun ea hea => ?_).andAdvance
  rw [stackRead_of_lt s hea]
  exact Res.noFault_ok _ _

theorem execStBp_answers (src : Reg) (off : BitVec 6) {s : State} (hsp : s.sp.toNat ≤ 65534) :
    ∃ t, execStBp src off s = .next t := by
  refine (bpEa_bind_noFault hsp fun ea hea => ?_).andAdvance
  rw [stackWrite_of_lt _ s hea]
  exact Res.noFault_ok _ _

theorem execPop_answers (m : BitVec 8) (s : State) : ∃ t, execPop m s = .next t := by
  unfold execPop
  split
  · exact ((pop_noFault s).bind fun _ _ _ => Res.noFault_ok _ _).andAdvance
  · exact (popAll_noFault _ s).andAdvance

theorem execLocs_answers (alloc : Bool) (n : BitVec 6) (s : State) : ∃ t, execLocs alloc n s = .next t := by
  cases alloc with
  | true => exact (allocate_noFault _ s).andAdvance
  | false => exact (deallocate_noFault _ s).andAdvance

theorem execTrap_answers (user : Bool) (code : BitVec 8) (s : State) : ∃ t, execTrap user code s = .next t := by
  unfold execTrap
  split
  · exact ⟨_, rfl⟩
  · exact ⟨_, rfl⟩

/-- No instruction is refused, and none meets a fault of the model while `sp` is in its range. -/
theorem exec_answers (i : Instr) {s : State} (hsp : s.sp.toNat ≤ 65534) : ∃ t, exec i s = .next t := by
  cases i with
  | ldBp d off => exact execLdBp_answers d off hsp
  | ldMem _ src => exact ((memRead_noFault (s.reg src) s).bind fun _ _ _ => Res.noFault_ok _ _).andAdvance
  | stReg | stImm => exact (memWrite_noFault _ _ s).andAdvance
  | stBp src off => exact execStBp_answers src off hsp
  | push m => exact (pushAll_noFault (maskRegs m) s).andAdvance
  | pop m => exact execPop_answers m s
  | locs alloc n => exact execLocs_answers alloc n s
  | jmp off => exact branchIf_answers true off s
  | jgt off => exact branchIf_answers s.flags.jgt off s
  | jeq off => exact branchIf_answers s.flags.jeq off s
  | jge off => exact branchIf_answers s.flags.jge off s
  | jlt off => exact branchIf_answers s.flags.jlt off s
  | jle off => exact branchIf_answers s.flags.jle off s
  | jsr =>
    exact ((push_noFault _ s).bind fun _ t _ => (push_noFault _ t).bind fun _ _ _ => Res.noFault_ok _ _).andJump
  | ret => exact ((pop_noFault _).bind fun _ _ _ => pop_noFault _).andJump
  | trap user code => exact execTrap_answers user code s
  | _ => exact ⟨_, rfl⟩

/-! ### A reserved word -/

theorem exec_illegal (low : BitVec 12) (s : State) :
    exec (.illegal low) s = .next (s.raise .unknownOpcode (15#4 ++ low).toNat) := rfl

theorem toNat_fifteen_append (low : BitVec 12) : (15#4 ++ low).toNat = 0xF000 + low.toNat := by
  have := low.isLt
  rw [BitVec.toNat_append, ← Nat.shiftLeft_add_eq_or_of_lt this]
  rfl

/-- A word of opcode 15 is given back by its opcode and its low twelve bits. -/
theorem fifteen_append_extractLsb' {w : Word} (h : fOpcode w = 15#4) : 15#4 ++ w.extractLsb' 0 12 = w := by
  have hw := (fOpcode_eq_fifteen_iff w).1 h
  apply BitVec.eq_of_toNat_eq
  rw [toNat_fifteen_append, BitVec.extractLsb'_toNat, Nat.shiftRight_zero]
  omega

/-! ### The obligations -/

/-- Settles O9: the decoder goes by the bits the rows test, and no word selects two rows. -/
theorem exactlyOneTableRowMatches : Obligations.ExactlyOneTableRowMatches := by
  intro w
  have hw : (tableRow (decodeWord w)).Matches w := (decodesBy_decodeWord w).matches
  exact ⟨hw, fun i hi => tableRows_disjoint _ (tableRow_mem_tableRows i) _ (tableRow_mem_tableRows _)
    (TableRow.Matches.compatible hi hw)⟩

/-- Settles O14: the fetch answers a word or ends the run, and every instruction answers a next state. -/
theorem runningMachineAlwaysSteps : Obligations.RunningMachineAlwaysSteps := by
  intro s hs hsp
  by_cases hpc : s.pc = 0xFFFF
  · exact ⟨_, step_fetch_ffff hs hpc⟩
  · rw [step_exec hs hpc]
    exact exec_answers _ hsp

/-- Settles O10: the decoder's reserved case is that of opcode 15, and its meaning is the fatal condition alone. -/
theorem opcodeFifteenIsTheOnlyIllegalEncoding : Obligations.OpcodeFifteenIsTheOnlyIllegalEncoding := by
  refine ⟨fun w => ?decode, fun w s hw => ?execute, fun low s => ?reserved⟩
  case decode => rw [not_wellFormed_decodeWord_iff, fOpcode_eq_fifteen_iff]
  case execute =>
    have h := (fOpcode_eq_fifteen_iff w).2 hw
    rw [decodeWord_of_fOpcode_fifteen h, exec_illegal, fifteen_append_extractLsb' h, endedBy_eq_raise]
  case reserved => rw [exec_illegal, toNat_fifteen_append, endedBy_eq_raise]

/-- Settles O11: the fetched word is the word its two bytes make. -/
theorem stepExecutesTheFetchedInstruction : Obligations.StepExecutesTheFetchedInstruction := by
  intro s i hs hpc hi
  rw [step_exec hs hpc, Memory.readWord_eq_ofNat, hi]

end Sys2Proof.Machine
end

/-! ## The execution cycle (40_execution_cycle.md)

What a step that answers a next state can be, in the words of the statements, and the statements on halting, on the
end of a run and on the fetch after a store. -/

section
namespace Sys2Proof.Machine

/-! ### The step in the words of the statements -/

theorem instrAt_eq_decodeWord (s : State) : instrAt s = decodeWord (s.mem.readWord s.pc.toNat) :=
  congrArg decodeWord (wordAt_eq_readWord s.mem s.pc.toNat)

/-- A step that answers a next state is that of a running machine, and ends the run at the fetch or executes the
instruction at `pc` (40_execution_cycle.md R121). -/
theorem step_next_instrAt {s t : State} (h : step s = .next t) :
    s.status = .running ∧ (t = s.raise .memoryOutOfRange 65535 ∨ exec (instrAt s) s = .next t) := by
  obtain ⟨hs, ⟨-, ht⟩ | ⟨-, he⟩⟩ := step_next_cases h
  · exact ⟨hs, .inl ht⟩
  · exact ⟨hs, .inr (instrAt_eq_decodeWord s ▸ he)⟩

/-! ### Halting -/

theorem isTrap_eq_true_iff {i : Instr} : isTrap i = true ↔ ∃ user code, i = .trap user code := by
  cases i with
  | trap user code => exact ⟨fun _ => ⟨user, code, rfl⟩, fun _ => rfl⟩
  | _ => exact ⟨nofun, nofun⟩

/-- An instruction other than TRAP does not halt a run that goes on. -/
theorem Effect.status_ne_halted {i : Instr} {s t : State} (e : Effect i s t) (hi : isTrap i = false)
    (hs : s.status = .running) : t.status ≠ .halted := by
  obtain ht | ⟨r, ht⟩ := e.status_eq_or_faulted hi
  · rw [ht, hs]; nofun
  · rw [ht]; nofun

/-- Only TRAP with code 0 halts a run that goes on (46_trap.md R251). -/
theorem eq_trap_zero_of_exec_halted {i : Instr} {s t : State} (h : exec i s = .next t) (hs : s.status = .running)
    (ht : t.status = .halted) : ∃ user, i = .trap user 0 := by
  cases hi : isTrap i with
  | false => exact absurd ht ((exec_effect h).status_ne_halted hi hs)
  | true =>
    obtain ⟨user, code, rfl⟩ := isTrap_eq_true_iff.1 hi
    obtain ⟨rfl, -⟩ | ⟨-, rfl⟩ := execTrap_cases h
    · exact ⟨user, rfl⟩
    · cases hs.symm.trans ht

/-! ### The fetch after a store -/

/-- A step on a word just stored at `pc` executes that word (20_memory.md R64). -/
theorem step_of_mem_eq_writeWord {m : Memory} {t : State} (w : Word) (hm : m.wf = true) (ht : t.status = .running)
    (hpc : t.pc ≠ 0xFFFF) (hmem : t.mem = m.writeWord t.pc.toNat w) : step t = exec (decodeWord w) t := by
  rw [step_exec ht hpc, hmem, Memory.readWord_writeWord_same w t.pc.isLt hm]

/-! ### The obligations -/

/-- Settles O16: a fatal fetch does not halt, and of the instructions only TRAP with code 0 does. -/
theorem haltOnlyByTrapCodeZero : Obligations.HaltOnlyByTrapCodeZero := by
  intro s t h ht
  obtain ⟨hs, rfl | he⟩ := step_next_instrAt h
  · cases ht
  · exact eq_trap_zero_of_exec_halted he hs ht

/-- Settles O41: the store leaves its word at the address that its advance moves `pc` to. -/
theorem nextFetchSeesTheStore : Obligations.NextFetchSeesTheStore := by
  intro a src s hs hm hroom ha
  have hpc : s.pc + 2 ≠ 0xFFFF := by bv_omega
  rw [exec_stReg, ha, memWrite_andAdvance_of_ne _ s hpc]
  exact ⟨_, rfl, rfl, step_of_mem_eq_writeWord (s.reg src) hm hs hpc rfl⟩

/-- Settles O13: `Halted` and `Faulted` are terminal. -/
theorem noStepAfterTheRunHasEnded : Obligations.NoStepAfterTheRunHasEnded :=
  fun _ => ⟨step_halted, fun _ => step_faulted⟩

end Sys2Proof.Machine
end

/-! ## Arithmetic and logic (41_alu.md, 42_shift_not.md R161)

The adder in the words of the statements, and the next state of ADD, AND, OR and NOT in terms of it. -/

section
namespace Sys2Proof.Machine

/-! ### The adder -/

theorem adderGives_add16 (a b : Word) : AdderGives a b (add16 a b).1 (add16 a b).2 := by
  rw [add16_flags, add16_result]
  refine ⟨BitVec.toNat_add a b, decide_eq_true_iff, decide_eq_true_iff, Iff.rfl, ?zero⟩
  case zero => exact decide_eq_true_iff.trans BitVec.toNat_eq

/-- Where the two signs are equal, differing from one is differing from the other. -/
theorem overflow_comm (a b r : Bool) : a = b ∧ r ≠ a ↔ b = a ∧ r ≠ b := by
  constructor <;> rintro ⟨rfl, hr⟩ <;> exact ⟨rfl, hr⟩

theorem add16_comm (a b : Word) : add16 a b = add16 b a := by
  apply Prod.ext
  case fst => rw [add16_result, add16_result, BitVec.add_comm]
  case snd =>
    rw [add16_flags, add16_flags, BitVec.add_comm b a, Nat.add_comm b.toNat]
    simp only [overflow_comm a.msb]

/-! ### The next state of an instruction that writes a register -/

theorem andAdvance_ok_setReg (s : State) (d : Reg) (v : Word) :
    (Res.ok () (s.setReg d v)).andAdvance = .next ((s.setReg d v).setPc (s.pc + 2)) := rfl

/-- The body that ADD and SUB share writes the adder's result and flags (R143, R144). -/
theorem addBody_andAdvance (d : Reg) (op2 : Word) (s : State) :
    ∃ r f, AdderGives op2 (s.reg d) r f ∧
      (addBody d op2 s).andAdvance = .next (((s.setReg d r).setFlags f).setPc (s.pc + 2)) :=
  ⟨_, _, adderGives_add16 op2 (s.reg d), rfl⟩

theorem andBody_andAdvance (d : Reg) (op2 : Word) (s : State) :
    (andBody d op2 s).andAdvance = .next ((s.setReg d (s.reg d &&& op2)).setPc (s.pc + 2)) :=
  andAdvance_ok_setReg s d _

theorem orBody_andAdvance (d : Reg) (op2 : Word) (s : State) :
    (orBody d op2 s).andAdvance = .next ((s.setReg d (s.reg d ||| op2)).setPc (s.pc + 2)) :=
  andAdvance_ok_setReg s d _

theorem exec_not (d : Reg) (s : State) :
    exec (.not d) s = .next ((s.setReg d (~~~ s.reg d)).setPc (s.pc + 2)) :=
  andAdvance_ok_setReg s d _

/-! ### The obligations -/

/-- Settles O23: the result and each flag of `add16`, and the symmetry of the overflow condition. -/
theorem adderGivesSumAndFlags : Obligations.AdderGivesSumAndFlags :=
  fun a b => ⟨adderGives_add16 a b, add16_comm a b⟩

/-- Settles O24: both modes run the shared body, on `x[src]` and on the zero-extended immediate. -/
theorem addWritesAdderResult : Obligations.AddWritesAdderResult :=
  ⟨fun d src _ s => addBody_andAdvance d (s.reg src) s, fun d imm s => addBody_andAdvance d (zext6 imm) s⟩

/-- Settles O27: AND and OR run their shared bodies, and NOT writes the complement. -/
theorem andOrNotCombineBitsAndKeepFlags : Obligations.AndOrNotCombineBitsAndKeepFlags := by
  refine ⟨?register, ?immediate, ?not⟩
  case register => exact fun d src _ s => ⟨andBody_andAdvance d (s.reg src) s, orBody_andAdvance d (s.reg src) s⟩
  case immediate => exact fun d imm s => ⟨andBody_andAdvance d (zext6 imm) s, orBody_andAdvance d (zext6 imm) s⟩
  case not =>
    refine fun d s => ⟨~~~ s.reg d, fun k hk => ?_, exec_not d s⟩
    rw [BitVec.getLsbD_not, decide_eq_true hk, Bool.true_and]

end Sys2Proof.Machine
end

/-! ## Shifts (42_shift_not.md)

The next state of LSHR in terms of the shifter. -/

section
namespace Sys2Proof.Machine

theorem exec_lshr (d : Reg) (n : BitVec 4) (s : State) :
    exec (.lshr d n) s = .next ((s.setReg d (lshr16 (s.reg d) n)).setPc (s.pc + 2)) :=
  andAdvance_ok_setReg s d _

/-- Settles O32: LSHR writes the shifter's result, which is the unsigned quotient. -/
theorem lshrWritesUnsignedQuotient : Obligations.LshrWritesUnsignedQuotient :=
  fun d n s => ⟨lshr16 (s.reg d) n, lshr16_toNat (s.reg d) n, exec_lshr d n s⟩

end Sys2Proof.Machine
end

/-! ## Loads and stores (43_load_store.md)

The next state of LD-reg, the register-to-register move. -/

section
namespace Sys2Proof.Machine

/-- Settles O33: LD-reg writes `x[src]`, as every instruction that writes one register does, and advances. -/
theorem ldRegCopiesRegister : Obligations.LdRegCopiesRegister :=
  fun d src s => andAdvance_ok_setReg s d (s.reg src)

end Sys2Proof.Machine
end

/-! ## Branches (45_branch.md)

The conditional jumps in the words of the statements, and that no instruction reads Carry. An instruction that
defines no flags hands the flags through from the state before to the state after: `Res.setFlags` and
`setFlagsOfNext` say so of the operations and of the instructions. The jumps alone look at flags, and not at C. -/

section
namespace Sys2Proof.Machine

/-! ### The conditions over Z, N and V (R221) -/

theorem Flags.jgt_eq_true_iff (f : Flags) : f.jgt = true ↔ f.z = false ∧ f.n = f.v := by
  simp [Flags.jgt, Flags.lt]

theorem Flags.jge_eq_true_iff (f : Flags) : f.jge = true ↔ f.n = f.v := by simp [Flags.jge, Flags.lt]

theorem Flags.jlt_eq_true_iff (f : Flags) : f.jlt = true ↔ f.n ≠ f.v := bne_iff_ne

theorem Flags.jle_eq_true_iff (f : Flags) : f.jle = true ↔ f.z = true ∨ f.n ≠ f.v := by
  simp [Flags.jle, Flags.lt]

theorem Flags.jle_eq_not_jgt (f : Flags) : f.jle = !f.jgt := by simp [Flags.jle, Flags.jgt]

/-! ### The jump in the words of the statements -/

theorem branchTarget_eq_targetOf (s : State) (off : BitVec 9) : branchTarget s.pc off = targetOf s off := by
  rw [branchTarget, targetOf, sext9_eq_toInt]

/-- A jump whose condition says `p` goes to the target when `p` holds, and on when not. -/
theorem branchIf_of_iff {b : Bool} {p : Prop} [Decidable p] (h : b = true ↔ p) (off : BitVec 9) (s : State) :
    branchIf b off s = .next (s.setPc (if p then targetOf s off else s.pc + 2)) := by
  rw [branchIf_eq, branchTarget_eq_targetOf, if_congr h rfl rfl]

/-! ### Operations hand the flags through -/

/-- The result with the flags of its state replaced. -/
def Res.setFlags {α : Type} (r : Res α) (f : Flags) : Res α :=
  match r with
  | .ok a s => .ok a (s.setFlags f)
  | .ended s => .ended (s.setFlags f)
  | .fault e => .fault e

/-- The outcome with the flags of its next state replaced. -/
def setFlagsOfNext (f : Flags) (o : Host.Outcome State Fault Refusal) : Host.Outcome State Fault Refusal :=
  match o with
  | .next s => .next (s.setFlags f)
  | .fault e => .fault e
  | .refused r => .refused r

theorem Res.bind_setFlags {α β : Type} (r : Res α) {k : α → State → Res β} {f : Flags}
    (hk : ∀ a s, k a (s.setFlags f) = (k a s).setFlags f) : (r.setFlags f).bind k = (r.bind k).setFlags f := by
  cases r with
  | ok a s => exact hk a s
  | ended s => rfl
  | fault e => rfl

theorem Res.andAdvance_setFlags (r : Res Unit) (f : Flags) :
    (r.setFlags f).andAdvance = setFlagsOfNext f r.andAdvance := by
  cases r with
  | ok u s => rfl
  | ended s => rfl
  | fault e => rfl

theorem Res.andJump_setFlags (r : Res Word) (f : Flags) :
    (r.setFlags f).andJump = setFlagsOfNext f r.andJump := by
  cases r with
  | ok w s => rfl
  | ended s => rfl
  | fault e => rfl

section
variable (s : State) (f : Flags)

theorem memRead_setFlags (addr : Word) : memRead addr (s.setFlags f) = (memRead addr s).setFlags f := by
  unfold memRead
  split <;> rfl

theorem memWrite_setFlags (addr v : Word) : memWrite addr v (s.setFlags f) = (memWrite addr v s).setFlags f := by
  unfold memWrite
  split <;> rfl

theorem stackRead_setFlags (addr : Nat) : stackRead addr (s.setFlags f) = (stackRead addr s).setFlags f := by
  unfold stackRead
  split <;> rfl

theorem stackWrite_setFlags (addr : Nat) (v : Word) :
    stackWrite addr v (s.setFlags f) = (stackWrite addr v s).setFlags f := by
  unfold stackWrite
  split <;> rfl

theorem bpEa_setFlags (off : BitVec 6) : bpEa off (s.setFlags f) = (bpEa off s).setFlags f := by
  obtain h | h := le_or_gt (bpOffset s.bp off) s.sp.toNat
  · rw [bpEa_of_le h, bpEa_of_le (s := s.setFlags f) h]; rfl
  · rw [bpEa_of_gt h, bpEa_of_gt (s := s.setFlags f) h]; rfl

theorem push_setFlags (v : Word) : push v (s.setFlags f) = (push v s).setFlags f := by
  obtain h | h := le_or_gt (s.sp.toNat + 2) 65534
  · rw [push_of_le v h, push_of_le v (s := s.setFlags f) h]; rfl
  · rw [push_of_gt v h, push_of_gt v (s := s.setFlags f) h]; rfl

theorem pop_setFlags : pop (s.setFlags f) = (pop s).setFlags f := by
  obtain h | h := le_or_gt 2 s.sp.toNat
  · rw [pop_of_ge h, pop_of_ge (s := s.setFlags f) h]; rfl
  · rw [pop_of_lt h, pop_of_lt (s := s.setFlags f) h]; rfl

theorem pushAll_setFlags (rs : List Reg) : pushAll rs (s.setFlags f) = (pushAll rs s).setFlags f := by
  induction rs generalizing s with
  | nil => rfl
  | cons r rs ih =>
    rw [pushAll, push_setFlags, Res.bind_setFlags _ fun _ u => ih u]
    rfl

theorem popAll_setFlags (rs : List Reg) : popAll rs (s.setFlags f) = (popAll rs s).setFlags f := by
  induction rs generalizing s with
  | nil => rfl
  | cons r rs ih =>
    rw [popAll, pop_setFlags, Res.bind_setFlags _ fun v u => ih (u.setReg r v)]
    rfl

theorem allocate_setFlags (k : Nat) : allocate k (s.setFlags f) = (allocate k s).setFlags f := by
  obtain h | h := le_or_gt (s.sp.toNat + k) 65534
  · rw [allocate_of_le h, allocate_of_le (s := s.setFlags f) h]; rfl
  · rw [allocate_of_gt h, allocate_of_gt (s := s.setFlags f) h]; rfl

theorem deallocate_setFlags (k : Nat) : deallocate k (s.setFlags f) = (deallocate k s).setFlags f := by
  obtain h | h := le_or_gt k s.sp.toNat
  · rw [deallocate_of_le h, deallocate_of_le (s := s.setFlags f) h]; rfl
  · rw [deallocate_of_gt h, deallocate_of_gt (s := s.setFlags f) h]; rfl

/-! ### Instructions hand the flags through -/

theorem branchIf_setFlags (cond : Bool) (off : BitVec 9) :
    branchIf cond off (s.setFlags f) = setFlagsOfNext f (branchIf cond off s) := by
  rw [branchIf_eq, branchIf_eq]
  rfl

theorem execLdBp_setFlags (d : Reg) (off : BitVec 6) :
    execLdBp d off (s.setFlags f) = setFlagsOfNext f (execLdBp d off s) := by
  rw [execLdBp, bpEa_setFlags, Res.bind_setFlags _ fun ea u => ?read, Res.andAdvance_setFlags]
  case read => rw [stackRead_setFlags, Res.bind_setFlags _ fun _ _ => rfl]
  rfl

theorem execLdMem_setFlags (d src : Reg) :
    execLdMem d src (s.setFlags f) = setFlagsOfNext f (execLdMem d src s) := by
  rw [execLdMem, memRead_setFlags, Res.bind_setFlags _ fun _ _ => rfl, Res.andAdvance_setFlags]
  rfl

theorem memWrite_andAdvance_setFlags (addr v : Word) :
    (memWrite addr v (s.setFlags f)).andAdvance = setFlagsOfNext f (memWrite addr v s).andAdvance := by
  rw [memWrite_setFlags, Res.andAdvance_setFlags]

theorem execStBp_setFlags (src : Reg) (off : BitVec 6) :
    execStBp src off (s.setFlags f) = setFlagsOfNext f (execStBp src off s) := by
  rw [execStBp, bpEa_setFlags, Res.bind_setFlags _ fun ea u => stackWrite_setFlags u f ea (u.reg src),
    Res.andAdvance_setFlags]
  rfl

theorem execPush_setFlags (m : BitVec 8) : execPush m (s.setFlags f) = setFlagsOfNext f (execPush m s) := by
  rw [execPush, pushAll_setFlags, Res.andAdvance_setFlags, execPush]

theorem execPop_setFlags (m : BitVec 8) : execPop m (s.setFlags f) = setFlagsOfNext f (execPop m s) := by
  unfold execPop
  split
  · rw [pop_setFlags, Res.bind_setFlags _ fun _ _ => rfl, Res.andAdvance_setFlags]
  · rw [popAll_setFlags, Res.andAdvance_setFlags]

theorem execLocs_setFlags (alloc : Bool) (n : BitVec 6) :
    execLocs alloc n (s.setFlags f) = setFlagsOfNext f (execLocs alloc n s) := by
  unfold execLocs
  split
  · rw [allocate_setFlags, Res.andAdvance_setFlags]
  · rw [deallocate_setFlags, Res.andAdvance_setFlags]

theorem execJsr_setFlags (off : BitVec 9) : execJsr off (s.setFlags f) = setFlagsOfNext f (execJsr off s) := by
  rw [execJsr, push_setFlags, Res.bind_setFlags _ fun _ u => ?second, Res.andJump_setFlags]
  case second => rw [push_setFlags, Res.bind_setFlags _ fun _ _ => rfl]; rfl
  rfl

theorem execRet_setFlags : execRet (s.setFlags f) = setFlagsOfNext f (execRet s) := by
  have first : pop ((s.setFlags f).setSp (s.setFlags f).bp) = (pop (s.setSp s.bp)).setFlags f :=
    pop_setFlags (s.setSp s.bp) f
  rw [execRet, first, Res.bind_setFlags _ fun oldBp u => pop_setFlags (u.setBp oldBp) f, Res.andJump_setFlags]
  rfl

theorem execTrap_setFlags (user : Bool) (code : BitVec 8) :
    execTrap user code (s.setFlags f) = setFlagsOfNext f (execTrap user code s) := by
  unfold execTrap
  split <;> rfl

end

/-- An instruction that defines no flags answers the same with another Carry, but for that Carry: the
conditions of the jumps are over Z, N and V, and the other instructions look at no flag (10_state.md R27). -/
theorem exec_setCarry_of_not_definesFlags {i : Instr} (s : State) (b : Bool) (hi : definesFlags i = false) :
    exec i (s.setFlags { s.flags with c := b }) = setFlagsOfNext { s.flags with c := b } (exec i s) := by
  cases i with
  | addReg | addImm | subReg | subImm | cmpReg | cmpImm | shl => cases hi
  | jmp off => exact branchIf_setFlags s _ true off
  | jgt off => exact branchIf_setFlags s _ s.flags.jgt off
  | jeq off => exact branchIf_setFlags s _ s.flags.jeq off
  | jge off => exact branchIf_setFlags s _ s.flags.jge off
  | jlt off => exact branchIf_setFlags s _ s.flags.jlt off
  | jle off => exact branchIf_setFlags s _ s.flags.jle off
  | jsr off => exact execJsr_setFlags s _ off
  | ret => exact execRet_setFlags s _
  | ldBp d off => exact execLdBp_setFlags s _ d off
  | ldMem d src => exact execLdMem_setFlags s _ d src
  | stReg a src => exact memWrite_andAdvance_setFlags s _ (s.reg a) (s.reg src)
  | stImm a imm => exact memWrite_andAdvance_setFlags s _ (s.reg a) (zext6 imm)
  | stBp src off => exact execStBp_setFlags s _ src off
  | push m => exact execPush_setFlags s _ m
  | pop m => exact execPop_setFlags s _ m
  | locs alloc n => exact execLocs_setFlags s _ alloc n
  | trap user code => exact execTrap_setFlags s _ user code
  | _ => rfl

/-! ### The obligations -/

/-- Settles O21: an instruction that defines the flags takes no notice of them, any other hands Carry through. -/
theorem carryIsNeverRead : Obligations.CarryIsNeverRead := by
  intro i s t b h
  cases hi : definesFlags i with
  | true => exact ⟨t, (exec_setFlags_of_definesFlags s _ hi).trans h, rfl⟩
  | false =>
    have ht : t.flags = s.flags := (exec_effect h).flags_eq hi
    refine ⟨t.setFlags { s.flags with c := b }, ?same, ?restored⟩
    case same => rw [exec_setCarry_of_not_definesFlags s b hi, h, setFlagsOfNext]
    case restored => rw [← ht]; rfl

/-- Settles O49: each condition is its formula over Z, N and V, and a jump tests its condition. -/
theorem conditionalJumpsTestTheirFlags : Obligations.ConditionalJumpsTestTheirFlags := by
  intro off s
  refine ⟨?jgt, ?jeq, ?jge, ?jlt, ?jle, ?complement⟩
  case jgt => exact branchIf_of_iff s.flags.jgt_eq_true_iff off s
  case jeq => exact branchIf_of_iff Iff.rfl off s
  case jge => exact branchIf_of_iff s.flags.jge_eq_true_iff off s
  case jlt => exact branchIf_of_iff s.flags.jlt_eq_true_iff off s
  case jle => exact branchIf_of_iff s.flags.jle_eq_true_iff off s
  case complement =>
    rw [← ite_not]
    refine branchIf_of_iff ?_ off s
    rw [Flags.jle_eq_not_jgt, ← Flags.jgt_eq_true_iff, Bool.not_eq_true', Bool.not_eq_true]

end Sys2Proof.Machine
end

/-! ## TRAP (46_trap.md)

The next state of TRAP in its two cases, the event it sends, and the frames of TRAP and of a reserved word. -/

section
namespace Sys2Proof.Machine

/-! ### The two cases of TRAP -/

theorem exec_trap_zero (user : Bool) (s : State) :
    exec (.trap user 0) s = .next (s.emit (trapEvent user 0 s)).halt := rfl

theorem exec_trap_of_ne_zero (user : Bool) {code : BitVec 8} (hc : code ≠ 0) (s : State) :
    exec (.trap user code) s = .next (s.emit (trapEvent user code s)).advance :=
  if_neg hc

/-! ### Its event, `sp` and the run status -/

/-- Halting or going on, TRAP sends exactly its event (46_trap.md R250). -/
theorem execTrap_traps {user : Bool} {code : BitVec 8} {s t : State} (h : execTrap user code s = .next t) :
    t.traps = s.traps ++ [trapEvent user code s] := by
  obtain ⟨-, rfl⟩ | ⟨-, rfl⟩ := execTrap_cases h
  · rfl
  · rfl

/-- TRAP keeps `sp`, in either case. -/
theorem execTrap_sp {user : Bool} {code : BitVec 8} {s t : State} (h : execTrap user code s = .next t) :
    t.sp = s.sp := by
  obtain ⟨-, rfl⟩ | ⟨-, rfl⟩ := execTrap_cases h
  · rfl
  · rfl

/-- TRAP with a code other than 0 keeps the run status (46_trap.md R251). -/
theorem execTrap_status {user : Bool} {code : BitVec 8} {s t : State} (h : execTrap user code s = .next t)
    (hc : code ≠ 0) : t.status = s.status := by
  obtain ⟨h0, -⟩ | ⟨-, rfl⟩ := execTrap_cases h
  · exact absurd h0 hc
  · rfl

/-- An instruction keeps the trap channel or is a TRAP that appends its event (10_state.md R34). -/
theorem exec_traps_cases {i : Instr} {s t : State} (h : exec i s = .next t) :
    t.traps = s.traps ∨ ∃ user code, i = .trap user code ∧ t.traps = s.traps ++ [trapEvent user code s] := by
  cases hi : isTrap i with
  | false => exact .inl ((exec_effect h).traps_eq hi)
  | true =>
    obtain ⟨user, code, rfl⟩ := isTrap_eq_true_iff.1 hi
    exact .inr ⟨user, code, rfl, execTrap_traps h⟩

/-! ### The obligations -/

/-- Settles O15: a fatal fetch sends no event, and of the instructions only TRAP sends one, its own. -/
theorem trapChannelIsAppendOnly : Obligations.TrapChannelIsAppendOnly := by
  intro s t h
  obtain ⟨-, rfl | he⟩ := step_next_instrAt h
  · exact .inl rfl
  · exact exec_traps_cases he

/-- Settles O60: TRAP writes none of the items the frame names, and a reserved word only ends the run. -/
theorem frameOfTrapAndReservedWords : Obligations.FrameOfTrapAndReservedWords := by
  refine ⟨fun u c s t h => ?trap, fun low s t h => ?reserved⟩
  case trap =>
    have e := exec_effect h
    exact ⟨e.reg_eq rfl nofun, execTrap_sp h, e.bp_eq rfl, e.flags_eq rfl, e.sameMem rfl, e.sameStack rfl,
      execTrap_status h⟩
  case reserved =>
    obtain rfl := next_injective ((exec_illegal low s).symm.trans h)
    exact ⟨fun _ => rfl, rfl, rfl, rfl, rfl, fun _ => rfl, fun _ => rfl⟩

/-- Settles O54: the event is `trapEvent`, and each case of the code has its own next state. -/
theorem trapEmitsItsEvent : Obligations.TrapEmitsItsEvent := by
  intro u c s
  refine ⟨trapEvent u c s, rfl, rfl, rfl, ?_⟩
  by_cases hc : c = 0
  · subst hc
    exact exec_trap_zero u s
  · rw [if_neg hc]
    exact exec_trap_of_ne_zero u hc s

end Sys2Proof.Machine
end

/-! ## The machine invariant and fatal conditions (60_exceptions.md)

What every effect of an instruction keeps of the invariant, and the shape of every effect that ends the run by a
fatal condition: one `raise` after operations that kept `pc`, linear memory, flags and trap channel. -/

section
namespace Sys2Proof.Machine

/-! ### The invariant, one part at a time -/

theorem Effect.mem_wf {i : Instr} {s t : State} (e : Effect i s t) (hm : s.mem.wf = true) : t.mem.wf = true := by
  cases e with
  | storesMem a v _ ha =>
    have hlt : (s.reg a).toNat + 1 < 65536 := by
      have := (s.reg a).isLt
      have := mt (word_eq_ffff_iff (s.reg a)).2 ha
      omega
    exact Memory.wf_writeWord v hlt hm
  | pushes hu | overflows _ _ hu => exact hu.mem ▸ hm
  | pops hu | underflows _ _ _ hu => exact hu.mem ▸ hm
  | _ => exact hm

theorem Effect.stack_wf {i : Instr} {s t : State} (e : Effect i s t) (hk : s.stack.wf = true) :
    t.stack.wf = true := by
  cases e with
  | storesStack src _ _ hlt => exact Memory.wf_writeWord (s.reg src) (by omega) hk
  | pushes hu | overflows _ _ hu => exact hu.wf hk
  | pops hu | underflows _ _ _ hu => exact hu.stack ▸ hk
  | calls _ h => exact Memory.wf_writeWord _ (by omega) (Memory.wf_writeWord _ (by omega) hk)
  | callOverflows _ _ h' => exact Memory.wf_writeWord _ (by omega) hk
  | _ => exact hk

/-- Every effect that lets the run go on keeps `sp` within 0..65534 (10_state.md R24, R35). -/
theorem Effect.sp_le {i : Instr} {s t : State} (e : Effect i s t) (hsp : s.sp.toNat ≤ 65534)
    (ht : t.status = .running) : t.sp.toNat ≤ 65534 := by
  cases e with
  | raises | overflows | underflows | callOverflows | returnUnderflows | returnUnderflowsAtOnce | halts => cases ht
  | pushes hu hl =>
    rw [State.advance_sp, hu.sp]
    obtain hnil | hle := hl
    · rw [hnil]; exact hsp
    · exact hle
  | pops hu => rw [State.advance_sp, hu.sp]; omega
  | discards h => rw [State.advance_sp, State.setSp_sp, toNat_sub_two h]; omega
  | movesSp v hv => rw [State.advance_sp, State.setSp_sp]; omega
  | calls _ h => simp only [State.setPc_sp, State.setBp_sp, State.setSp_sp]; bv_omega
  | returns h => simp only [State.setPc_sp, State.setBp_sp, State.setSp_sp]; bv_omega
  | _ => exact hsp

theorem Effect.inv {i : Instr} {s t : State} (e : Effect i s t) (hs : s.status = .running) (h : s.Inv) : t.Inv := by
  obtain ⟨hm, hk, hsp⟩ := h
  exact ⟨e.mem_wf hm, e.stack_wf hk, e.sp_le (hsp hs)⟩

/-- A fatal condition keeps both regions, and the invariant bounds `sp` only while the run goes on. -/
theorem State.Inv.raise {s : State} (h : s.Inv) (c : Condition) (value : Int) : (s.raise c value).Inv := by
  obtain ⟨hm, hk, -⟩ := h
  exact ⟨hm, hk, nofun⟩

/-! ### Effects that end the run by a fatal condition -/

/-- What an instruction has left alone when a fatal condition meets it (60_exceptions.md R268, decision D22). -/
structure KeptUntilFatal (s u : State) : Prop where
  pc : u.pc = s.pc
  mem : u.mem = s.mem
  flags : u.flags = s.flags
  traps : u.traps = s.traps

/-- An instruction that ends a run by a fatal condition raises one of its own conditions, in a state it reached with
`pc`, linear memory, flags and trap channel untouched. -/
theorem Effect.exists_raise_of_faulted {i : Instr} {s t : State} {r : Report} (e : Effect i s t)
    (hs : s.status = .running) (ht : t.status = .faulted r) :
    ∃ u c x, t = u.raise c x ∧ mayRaise i c = true ∧ KeptUntilFatal s u := by
  cases e with
  | raises x hc => exact ⟨s, _, x, rfl, hc, rfl, rfl, rfl, rfl⟩
  | overflows _ _ hu => exact ⟨_, _, _, rfl, rfl, hu.pc, hu.mem, hu.flags, hu.traps⟩
  | underflows _ _ _ hu => exact ⟨_, _, _, rfl, rfl, hu.pc, hu.mem, hu.flags, hu.traps⟩
  | callOverflows | returnUnderflows | returnUnderflowsAtOnce => exact ⟨_, _, _, rfl, rfl, rfl, rfl, rfl, rfl⟩
  | halts => cases ht
  | pushes hu => cases hs.symm.trans (hu.status.symm.trans ht)
  | pops hu => cases hs.symm.trans (hu.status.symm.trans ht)
  | _ => cases hs.symm.trans ht

/-- A step that ends the run by a fatal condition, at its fetch or in its instruction, raises it in a state reached with
`pc`, linear memory, flags and trap channel untouched. -/
theorem step_exists_raise_of_faulted {s t : State} {r : Report} (h : step s = .next t) (ht : t.status = .faulted r) :
    ∃ u c x, t = u.raise c x ∧ KeptUntilFatal s u := by
  obtain ⟨hs, rfl | he⟩ := step_next_instrAt h
  · exact ⟨s, _, _, rfl, rfl, rfl, rfl, rfl⟩
  · obtain ⟨u, c, x, hu, -, hk⟩ := (exec_effect he).exists_raise_of_faulted hs ht
    exact ⟨u, c, x, hu, hk⟩

theorem State.eq_report_of_raise_status {s : State} {c : Condition} {value : Int} {r : Report}
    (h : (s.raise c value).status = .faulted r) : r = { condition := c, pc := s.pc, sp := s.sp, value := value } :=
  (Status.faulted.inj h).symm

/-! ### The obligations -/

/-- Settles O4: a fatal fetch keeps the invariant, and so does every effect of an instruction. -/
theorem stepKeepsInvariant : Obligations.StepKeepsInvariant := by
  intro s t hi h
  obtain ⟨hs, rfl | he⟩ := step_next_instrAt h
  · exact hi.raise _ _
  · exact (exec_effect he).inv hs hi

/-- Settles O17: the state reached is a `raise`, whose report has the `pc` and the `sp` of that state. -/
theorem fatalReportNamesTheInstruction : Obligations.FatalReportNamesTheInstruction := by
  intro s t r h ht
  obtain ⟨u, c, x, rfl, hk⟩ := step_exists_raise_of_faulted h ht
  obtain rfl := State.eq_report_of_raise_status ht
  exact ⟨hk.pc, hk.pc, rfl, hk.mem, hk.flags, hk.traps⟩

/-- Settles O18: every `raise` among the effects of an instruction is of a condition in its row of R260's table. -/
theorem fatalConditionsComeOnlyFromTheirInstructions :
    Obligations.FatalConditionsComeOnlyFromTheirInstructions := by
  intro i s t r hs h ht
  obtain ⟨u, c, x, rfl, hc, -⟩ := (exec_effect h).exists_raise_of_faulted hs ht
  obtain rfl := State.eq_report_of_raise_status ht
  exact hc

end Sys2Proof.Machine
end

/-! ## STACK and LOCS (44_stack.md)

The masks and the partial effects of the statements in the model's terms, and the next state of PUSH, POP and LOCS in
each case. -/

section
namespace Sys2Proof.Machine

/-! ### The words of the statements in the model's terms -/

theorem maskReg_eq_getElem? (m : BitVec 8) (k : Nat) : maskReg m k = (maskRegs m)[k]? := rfl

theorem maskRegs_take_maskCount (m : BitVec 8) : (maskRegs m).take (maskCount m) = maskRegs m := List.take_length

/-- The `k`-th register of a mask is the `k`-th of the first `n`. -/
theorem exists_getElem_take_of_maskReg {m : BitVec 8} {n k : Nat} {r : Reg} (hk : k < n) (h : maskReg m k = some r) :
    ∃ hl : k < ((maskRegs m).take n).length, ((maskRegs m).take n)[k] = r := by
  rw [maskReg_eq_getElem?, ← List.getElem?_take_of_lt hk] at h
  exact List.getElem?_eq_some_iff.1 h

/-- A register among the first `n` of a mask is its `k`-th for some `k` below `n`. -/
theorem exists_maskReg_of_mem_take {m : BitVec 8} {n : Nat} {r : Reg} (h : r ∈ (maskRegs m).take n) :
    ∃ k, k < n ∧ maskReg m k = some r := by
  obtain ⟨k, hk⟩ := List.mem_iff_getElem?.1 h
  rw [List.getElem?_take] at hk
  split at hk
  case isTrue hlt => exact ⟨k, hlt, hk⟩
  case isFalse => cases hk

theorem length_take_maskRegs {m : BitVec 8} {n : Nat} (hn : n ≤ maskCount m) : ((maskRegs m).take n).length = n :=
  List.length_take_of_le hn

theorem Pushed.afterPushes {m : BitVec 8} {n : Nat} {s t : State} (h : Pushed ((maskRegs m).take n) s t)
    (hn : n ≤ maskCount m) (hk : s.stack.wf = true) : AfterPushes m n s t := by
  have hl := length_take_maskRegs hn
  refine ⟨hl ▸ h.sp, fun k r hkn hr => ?words, hl ▸ h.other, h.reg, fun a => congrArg (·.read a) h.mem, h.bp,
    h.flags, h.traps⟩
  obtain ⟨hkl, rfl⟩ := exists_getElem_take_of_maskReg hkn hr
  rw [wordAt_eq_readWord, h.words hk k hkl]

theorem Popped.afterPops {m : BitVec 8} {n : Nat} {s t : State} (h : Popped ((maskRegs m).take n) s t)
    (hn : n ≤ maskCount m) : AfterPops m n s t := by
  have hl := length_take_maskRegs hn
  refine ⟨hl ▸ h.sp, fun k r hkn hr => ?popped, fun r hr => ?other, fun a => congrArg (·.read a) h.stack,
    fun a => congrArg (·.read a) h.mem, h.bp, h.flags, h.traps⟩
  case popped =>
    obtain ⟨hkl, rfl⟩ := exists_getElem_take_of_maskReg hkn hr
    rw [wordAt_eq_readWord, h.popped k hkl]
  case other =>
    refine h.other r fun hmem => ?_
    obtain ⟨k, hkn, hk⟩ := exists_maskReg_of_mem_take hmem
    exact hr k hkn hk

/-! ### PUSH -/

theorem exec_push (m : BitVec 8) (s : State) : exec (.push m) s = (pushAll (maskRegs m) s).andAdvance := rfl

theorem exec_push_of_maskCount_zero {m : BitVec 8} (hm : maskCount m = 0) (s : State) :
    exec (.push m) s = .next s.advance := by
  have hnil : maskRegs m = [] := List.eq_nil_of_length_eq_zero hm
  rw [exec_push, hnil]
  rfl

theorem exec_push_of_le {m : BitVec 8} {s : State} (h : s.sp.toNat + 2 * maskCount m ≤ 65534) :
    ∃ u, exec (.push m) s = .next u.advance ∧ Pushed (maskRegs m) s u := by
  obtain ⟨u, hu, hp⟩ := pushAll_of_le (rs := maskRegs m) h
  exact ⟨u, by rw [exec_push, hu, Res.andAdvance_ok], hp⟩

/-- Where the pushes of a mask that does not fit stop: after as many words as there is room for. -/
theorem exec_push_of_gt {m : BitVec 8} {s : State} (hm : 0 < maskCount m)
    (h : 65534 < s.sp.toNat + 2 * maskCount m) :
    ∃ u, exec (.push m) s = .next (u.raise .stackOverflow (u.sp.toNat + 2)) ∧
      Pushed ((maskRegs m).take ((65534 - s.sp.toNat) / 2)) s u ∧ (65534 - s.sp.toNat) / 2 < maskCount m := by
  obtain ⟨u, hu, hp, hn⟩ := pushAll_of_gt (rs := maskRegs m) h (.inr (List.ne_nil_of_length_pos hm))
  exact ⟨u, by rw [exec_push, hu, Res.andAdvance_ended], hp, hn⟩

/-! ### POP -/

theorem exec_pop_zero (s : State) : exec (.pop 0) s = ((pop s).bind fun _ s => .ok () s).andAdvance := rfl

theorem exec_pop_of_ne_zero {m : BitVec 8} (hm : m ≠ 0) (s : State) :
    exec (.pop m) s = (popAll (maskRegs m) s).andAdvance := if_neg hm

theorem exec_pop_of_le {m : BitVec 8} {s : State} (hm : m ≠ 0) (h : 2 * maskCount m ≤ s.sp.toNat) :
    ∃ u, exec (.pop m) s = .next u.advance ∧ Popped (maskRegs m) s u := by
  obtain ⟨u, hu, hp⟩ := popAll_of_le (maskRegs_nodup m) h
  exact ⟨u, by rw [exec_pop_of_ne_zero hm, hu, Res.andAdvance_ok], hp⟩

/-- Where the pops of a mask that lacks values stop: after as many words as lie below `sp`. -/
theorem exec_pop_of_gt {m : BitVec 8} {s : State} (hm : m ≠ 0) (h : s.sp.toNat < 2 * maskCount m) :
    ∃ u, exec (.pop m) s = .next (u.raise .stackUnderflow ((u.sp.toNat : Int) - 2)) ∧
      Popped ((maskRegs m).take (s.sp.toNat / 2)) s u ∧ s.sp.toNat / 2 < maskCount m := by
  obtain ⟨u, hu, hp, hn⟩ := popAll_of_gt (maskRegs_nodup m) h
  exact ⟨u, by rw [exec_pop_of_ne_zero hm, hu, Res.andAdvance_ended], hp, hn⟩

/-! ### LOCS -/

theorem exec_locs_true (n : BitVec 6) (s : State) :
    exec (.locs true n) s = (allocate (2 * n.toNat) s).andAdvance := rfl

theorem exec_locs_false (n : BitVec 6) (s : State) :
    exec (.locs false n) s = (deallocate (2 * n.toNat) s).andAdvance := rfl

/-! ### The obligations -/

/-- Settles O42: the pushes of the mask's registers all fit, or stop at the first that does not. -/
theorem pushStacksMaskAscending : Obligations.PushStacksMaskAscending := by
  intro m s hk
  refine ⟨fun hm => exec_push_of_maskCount_zero hm s, fun hfit => ?fits, fun hm hover => ?overflows⟩
  case fits =>
    obtain ⟨u, hu, hp⟩ := exec_push_of_le hfit
    rw [← maskRegs_take_maskCount] at hp
    exact ⟨u.advance, hu, hp.afterPushes le_rfl hk, congrArg (· + 2) hp.pc, hp.status⟩
  case overflows =>
    obtain ⟨u, hu, hp, hn⟩ := exec_push_of_gt hm hover
    have ha := hp.afterPushes hn.le hk
    refine ⟨u, _, hn, ?_, by omega, by omega, ha, hp.pc⟩
    rw [hu, endedBy_eq_raise, ha.1]
    rfl

/-- Settles O43: the pops into the mask's registers all find a value, or stop at the first that does not. -/
theorem popUnstacksMaskAscending : Obligations.PopUnstacksMaskAscending := by
  refine ⟨fun s => ?discard, fun m s hm => ⟨fun hfit => ?enough, fun hunder => ?underflows⟩⟩
  case discard =>
    rw [exec_pop_zero, endedBy_eq_raise]
    split
    case isTrue hlt => rw [pop_of_lt hlt]; rfl
    case isFalse hge => rw [pop_of_ge (by omega)]; rfl
  case enough =>
    obtain ⟨u, hu, hp⟩ := exec_pop_of_le hm hfit
    rw [← maskRegs_take_maskCount] at hp
    exact ⟨u.advance, hu, hp.afterPops le_rfl, congrArg (· + 2) hp.pc, hp.status⟩
  case underflows =>
    obtain ⟨u, hu, hp, hn⟩ := exec_pop_of_gt hm hunder
    have ha := hp.afterPops hn.le
    refine ⟨u, _, hn, rfl, ?_, ha, hp.pc⟩
    have hsp : (u.sp.toNat : Int) - 2 = (s.sp.toNat : Int) - 2 * (s.sp.toNat / 2 : Nat) - 2 := by
      rw [ha.1]; omega
    rw [hu, endedBy_eq_raise, hsp]

/-- Settles O45: `allocate` and `deallocate` of twice the size, each inside the region and past its end. -/
theorem locsMovesStackPointerByWords : Obligations.LocsMovesStackPointerByWords := by
  intro n s
  simp only [exec_locs_true, exec_locs_false, endedBy_eq_raise]
  refine ⟨fun h => ⟨s.sp + BitVec.ofNat 16 (2 * n.toNat), by bv_omega, ?up⟩, fun h => ?above,
    fun h => ⟨s.sp - BitVec.ofNat 16 (2 * n.toNat), by bv_omega, ?down⟩, fun h => ?below⟩
  case up => rw [allocate_of_le h]; rfl
  case above => rw [allocate_of_gt h]; rfl
  case down => rw [deallocate_of_le h]; rfl
  case below => rw [deallocate_of_gt h]; rfl

end Sys2Proof.Machine
end

/-! ## The start of a run (70_reset_and_hazards.md)

What the host's start of a run writes and what it leaves (R301): one rule per field of the state, the registers
read one at a time. -/

section
namespace Sys2Proof.Machine

/-! ### startRun -/

@[simp] theorem State.startRun_pc (s : State) (a : Word) : (s.startRun a).pc = a := rfl
@[simp] theorem State.startRun_status (s : State) (a : Word) : (s.startRun a).status = .running := rfl
@[simp] theorem State.startRun_traps (s : State) (a : Word) : (s.startRun a).traps = [] := rfl
@[simp] theorem State.startRun_reg (s : State) (a : Word) (r : Reg) : (s.startRun a).reg r = s.reg r := rfl
@[simp] theorem State.startRun_sp (s : State) (a : Word) : (s.startRun a).sp = s.sp := rfl
@[simp] theorem State.startRun_bp (s : State) (a : Word) : (s.startRun a).bp = s.bp := rfl
@[simp] theorem State.startRun_flags (s : State) (a : Word) : (s.startRun a).flags = s.flags := rfl
@[simp] theorem State.startRun_mem (s : State) (a : Word) : (s.startRun a).mem = s.mem := rfl
@[simp] theorem State.startRun_stack (s : State) (a : Word) : (s.startRun a).stack = s.stack := rfl

/-! ### The obligations -/

/-- Settles O3: the three fields a start writes, then the fields it leaves, each by its rule. -/
theorem startRunSetsOnlyPcStatusAndTraps : Obligations.StartRunSetsOnlyPcStatusAndTraps := fun s a =>
  ⟨s.startRun_pc a, s.startRun_status a, s.startRun_traps a, s.startRun_reg a, s.startRun_sp a,
    s.startRun_bp a, s.startRun_flags a, s.startRun_mem a, s.startRun_stack a⟩

end Sys2Proof.Machine
end

/-! ## The encoder and the ignored bits (30_encoding.md sections 5 and 6)

The fields read back from each canonical layout give the round trip from an instruction, for every setting of the
encoding parameters. The other way round goes by `AgreeOff`: two words that agree off the ignored bits of a row have
the same fields of that row, and so does the canonical word with the word it was decoded from. -/

section
namespace Sys2Proof

/-! ### The decoder under every setting of the parameters -/

/-- The opcode numbers that are parameters of the encoding (92_eei_decisions.md D1). -/
def parameterOpcodes : List (BitVec 4) := [7, 11, 13, 14]

theorem params_valid : params.Valid := by
  unfold Config.Valid
  decide

section
variable {c : Config} (hc : c.Valid)
include hc

theorem Config.Valid.mem_parameterOpcodes :
    c.opcNot ∈ parameterOpcodes ∧ c.opcLocs ∈ parameterOpcodes ∧ c.opcBr ∈ parameterOpcodes ∧
      c.opcTrap ∈ parameterOpcodes := by
  obtain ⟨htrap, hnot, hlocs, hbr, -⟩ := hc
  simp only [parameterOpcodes, List.mem_cons]
  exact ⟨by tauto, by tauto, by tauto, by tauto⟩

theorem Config.Valid.trapUBit_eq : c.trapUBit = 9 ∨ c.trapUBit = 10 := by
  obtain ⟨-, -, -, -, -, -, -, hu⟩ := hc
  exact hu

theorem Config.Valid.opcTrap_ne : c.opcTrap ≠ c.opcNot ∧ c.opcTrap ≠ c.opcLocs ∧ c.opcTrap ≠ c.opcBr := by
  obtain ⟨htrap, hnot, hlocs, hbr, -⟩ := hc
  rw [htrap]
  refine ⟨?_, ?_, ?_⟩
  · obtain h | h | h := hnot <;> rw [h] <;> decide
  · obtain h | h | h := hlocs <;> rw [h] <;> decide
  · obtain h | h | h := hbr <;> rw [h] <;> decide

/-- An opcode that is no parameter decodes alike under every setting. -/
theorem decodeWith_eq_decodeWord {w : Word} (hw : fOpcode w ∉ parameterOpcodes) :
    decodeWith c w = decodeWord w := by
  have hne : ∀ op ∈ parameterOpcodes, fOpcode w ≠ op := fun op hop h => hw (h ▸ hop)
  obtain ⟨hnot, hlocs, hbr, htrap⟩ := hc.mem_parameterOpcodes
  obtain ⟨hnot', hlocs', hbr', htrap'⟩ := params_valid.mem_parameterOpcodes
  rw [decodeWord, decodeWith, decodeWith, if_neg (hne _ hnot), if_neg (hne _ hlocs), if_neg (hne _ hbr),
    if_neg (hne _ htrap), if_neg (hne _ hnot'), if_neg (hne _ hlocs'), if_neg (hne _ hbr'), if_neg (hne _ htrap')]

theorem decodeWith_of_opcLocs {w : Word} (h : fOpcode w = c.opcLocs) :
    decodeWith c w = .locs (w.getLsbD 8) (fSix w) := by
  obtain ⟨-, -, -, -, hnl, -⟩ := hc
  rw [decodeWith, h, if_neg hnl.symm, if_pos rfl]

theorem decodeWith_of_opcBr {w : Word} (h : fOpcode w = c.opcBr) : decodeWith c w = decodeBr w := by
  obtain ⟨-, -, -, -, -, hnb, hlb, -⟩ := hc
  rw [decodeWith, h, if_neg hnb.symm, if_neg hlb.symm, if_pos rfl]

theorem decodeWith_of_opcTrap {w : Word} (h : fOpcode w = c.opcTrap) :
    decodeWith c w = .trap (w.getLsbD c.trapUBit) (fEight w) := by
  obtain ⟨hnot, hlocs, hbr⟩ := hc.opcTrap_ne
  rw [decodeWith, h, if_neg hnot, if_neg hlocs, if_neg hbr, if_pos rfl]

end

theorem decodeWith_of_opcNot {c : Config} {w : Word} (h : fOpcode w = c.opcNot) :
    decodeWith c w = .not (fRegHi w) := if_pos h

/-- The opcode determines the case. -/
theorem DecodesBy.decodeWord_eq {w : Word} {i : Instr} (hd : DecodesBy w i) : decodeWord w = i := by
  cases hd with
  | _ h => simp [decodeWord, decodeWith, params, h]

/-! ### Fields of the canonical words -/

@[simp] theorem toFin_regBits (r : Reg) : (regBits r).toFin = r := by
  revert r; decide

section
variable (op : BitVec 4) (d s : Reg) (b : BitVec 1) (g : Bool)

@[simp] theorem fOpcode_encArithReg : fOpcode (encArithReg op d g s) = op := by
  simp (disch := decide) only [fOpcode, encArithReg, BitVec.extractLsb'_append_eq_of_le, Nat.reduceSub,
    BitVec.extractLsb'_eq_self]

@[simp] theorem fOpcode_encArithImm (imm : BitVec 6) : fOpcode (encArithImm op d imm) = op := by
  simp (disch := decide) only [fOpcode, encArithImm, BitVec.extractLsb'_append_eq_of_le, Nat.reduceSub,
    BitVec.extractLsb'_eq_self]

@[simp] theorem fOpcode_encShift (n : BitVec 4) : fOpcode (encShift op d n) = op := by
  simp (disch := decide) only [fOpcode, encShift, BitVec.extractLsb'_append_eq_of_le, Nat.reduceSub,
    BitVec.extractLsb'_eq_self]

@[simp] theorem fOpcode_encSix (f : BitVec 6) : fOpcode (encSix op d b f) = op := by
  simp (disch := decide) only [fOpcode, encSix, BitVec.extractLsb'_append_eq_of_le, Nat.reduceSub,
    BitVec.extractLsb'_eq_self]

@[simp] theorem fOpcode_encTwo : fOpcode (encTwo op d b s) = op := by
  simp (disch := decide) only [fOpcode, encTwo, BitVec.extractLsb'_append_eq_of_le, Nat.reduceSub,
    BitVec.extractLsb'_eq_self]

@[simp] theorem fOpcode_encStack (m : BitVec 8) : fOpcode (encStack b m) = 10#4 := by
  simp (disch := decide) only [fOpcode, encStack, BitVec.extractLsb'_append_eq_of_le, Nat.reduceSub,
    BitVec.extractLsb'_eq_self]

@[simp] theorem fOpcode_encFrame (n : BitVec 6) : fOpcode (encFrame op g n) = op := by
  simp (disch := decide) only [fOpcode, encFrame, BitVec.extractLsb'_append_eq_of_le, Nat.reduceSub,
    BitVec.extractLsb'_eq_self]

@[simp] theorem fOpcode_encBr (cond : BitVec 3) (off : BitVec 9) : fOpcode (encBr op cond off) = op := by
  simp (disch := decide) only [fOpcode, encBr, BitVec.extractLsb'_append_eq_of_le, Nat.reduceSub,
    BitVec.extractLsb'_eq_self]

@[simp] theorem fOpcode_reserved (low : BitVec 12) : fOpcode (15#4 ++ low) = 15#4 :=
  BitVec.extractLsb'_append_eq_left

@[simp] theorem extractLsb'_reserved (low : BitVec 12) : (15#4 ++ low).extractLsb' 0 12 = low :=
  BitVec.extractLsb'_append_eq_right

@[simp] theorem fRegHi_encShift (n : BitVec 4) : fRegHi (encShift op d n) = d := by
  simp (disch := decide) only [fRegHi, encShift, BitVec.extractLsb'_append_eq_of_le,
    BitVec.extractLsb'_append_eq_of_add_le, Nat.reduceSub, BitVec.extractLsb'_eq_self, toFin_regBits]

@[simp] theorem fAmount_encShift (n : BitVec 4) : fAmount (encShift op d n) = n := BitVec.extractLsb'_append_eq_right

@[simp] theorem getLsbD_encFrame (n : BitVec 6) : (encFrame op g n).getLsbD 8 = g := by
  simp only [encFrame, BitVec.getLsbD_append]
  simp

@[simp] theorem fSix_encFrame (n : BitVec 6) : fSix (encFrame op g n) = n := BitVec.extractLsb'_append_eq_right

@[simp] theorem fCond_encBr (cond : BitVec 3) (off : BitVec 9) : fCond (encBr op cond off) = cond := by
  simp (disch := decide) only [fCond, encBr, BitVec.extractLsb'_append_eq_of_le,
    BitVec.extractLsb'_append_eq_of_add_le, Nat.reduceSub, BitVec.extractLsb'_eq_self]

@[simp] theorem fOff9_encBr (cond : BitVec 3) (off : BitVec 9) : fOff9 (encBr op cond off) = off :=
  BitVec.extractLsb'_append_eq_right

/-! ### Each decoder on its canonical words -/

@[simp] theorem decodeArith_encArithReg (reg : Reg → Bool → Reg → Instr) (imm : Reg → BitVec 6 → Instr) :
    decodeArith reg imm (encArithReg op d g s) = reg d g s := by
  simp (disch := decide) only [decodeArith, fRegHi, fRegLo, encArithReg, BitVec.extractLsb'_append_eq_of_le,
    BitVec.extractLsb'_append_eq_of_add_le, Nat.reduceSub, BitVec.extractLsb'_eq_self, BitVec.getLsbD_append,
    toFin_regBits]
  simp

@[simp] theorem decodeArith_encArithImm (reg : Reg → Bool → Reg → Instr) (imm : Reg → BitVec 6 → Instr)
    (f : BitVec 6) : decodeArith reg imm (encArithImm op d f) = imm d f := by
  simp (disch := decide) only [decodeArith, fRegHi, fSix, encArithImm, BitVec.extractLsb'_append_eq_of_le,
    BitVec.extractLsb'_append_eq_of_add_le, Nat.reduceSub, BitVec.extractLsb'_eq_self, BitVec.getLsbD_append,
    toFin_regBits]
  simp

@[simp] theorem decodeLd_encSix (f : BitVec 6) :
    decodeLd (encSix op d b f) = if b.getLsbD 0 then .ldBp d f else .ldImm d f := by
  simp (disch := decide) only [decodeLd, fRegHi, fSix, encSix, BitVec.extractLsb'_append_eq_of_le,
    BitVec.extractLsb'_append_eq_of_add_le, Nat.reduceSub, BitVec.extractLsb'_eq_self, BitVec.getLsbD_append,
    toFin_regBits]
  simp

@[simp] theorem decodeLd_encTwo : decodeLd (encTwo op d b s) = if b.getLsbD 0 then .ldMem d s else .ldReg d s := by
  simp (disch := decide) only [decodeLd, fRegHi, fRegLo, encTwo, BitVec.extractLsb'_append_eq_of_le,
    BitVec.extractLsb'_append_eq_of_add_le, Nat.reduceSub, BitVec.extractLsb'_eq_self, BitVec.getLsbD_append,
    toFin_regBits]
  simp

@[simp] theorem decodeSt_encSix (f : BitVec 6) :
    decodeSt (encSix op d b f) = if b.getLsbD 0 then .stImm d f else .stBp d f := by
  simp (disch := decide) only [decodeSt, fRegHi, fSix, encSix, BitVec.extractLsb'_append_eq_of_le,
    BitVec.extractLsb'_append_eq_of_add_le, Nat.reduceSub, BitVec.extractLsb'_eq_self, BitVec.getLsbD_append,
    toFin_regBits]
  simp

@[simp] theorem decodeSt_encTwo : decodeSt (encTwo op d b s) = .stReg d s := by
  simp (disch := decide) only [decodeSt, fRegHi, fRegLo, encTwo, BitVec.extractLsb'_append_eq_of_le,
    BitVec.extractLsb'_append_eq_of_add_le, Nat.reduceSub, BitVec.extractLsb'_eq_self, BitVec.getLsbD_append,
    toFin_regBits]
  simp

@[simp] theorem decodeStack_encStack (m : BitVec 8) :
    decodeStack (encStack b m) = if b.getLsbD 0 then .push m else .pop m := by
  simp (disch := decide) only [decodeStack, fEight, encStack, BitVec.extractLsb'_append_eq_of_add_le,
    BitVec.extractLsb'_eq_self, BitVec.getLsbD_append]
  simp

/-- The user flag of TRAP lies outside a field that does not hold its position. -/
theorem extractLsb'_userBit {ubit start len : Nat} (h : (1#16 <<< ubit).extractLsb' start len = 0#len) :
    (if g then 1#16 <<< ubit else 0#16).extractLsb' start len = 0#len := by
  cases g with
  | true => exact h
  | false => exact BitVec.extractLsb'_zero

section
variable {ubit : Nat} (hu : ubit = 9 ∨ ubit = 10) (code : BitVec 8)
include hu

theorem fOpcode_encTrap : fOpcode (encTrap op ubit g code) = op := by
  rw [fOpcode, encTrap, BitVec.extractLsb'_or, extractLsb'_userBit g (by obtain rfl | rfl := hu <;> rfl),
    BitVec.or_zero]
  exact (BitVec.extractLsb'_append_eq_of_le (by decide)).trans BitVec.extractLsb'_append_eq_left

theorem fEight_encTrap : fEight (encTrap op ubit g code) = code := by
  rw [fEight, encTrap, BitVec.extractLsb'_or, extractLsb'_userBit g (by obtain rfl | rfl := hu <;> rfl),
    BitVec.or_zero]
  exact BitVec.extractLsb'_append_eq_right

theorem getLsbD_encTrap : (encTrap op ubit g code).getLsbD ubit = g := by
  simp only [encTrap, BitVec.getLsbD_or, BitVec.getLsbD_append]
  obtain rfl | rfl := hu <;> cases g <;> simp

end

/-! ### From an instruction to its word and back -/

/-- The round trip from an instruction: by their layouts where the opcode is a parameter, and as under the decided
values where it is not (30_encoding.md R102). -/
theorem decodeWith_encodeWith {c : Config} (hc : c.Valid) (i : Instr) : decodeWith c (encodeWith c i) = i := by
  cases i with
  | not d => rw [encodeWith, decodeWith_of_opcNot (fOpcode_encShift _ _ _), fRegHi_encShift]
  | locs alloc n =>
    rw [encodeWith, decodeWith_of_opcLocs hc (fOpcode_encFrame _ _ _), getLsbD_encFrame, fSix_encFrame]
  | jmp | jgt | jeq | jge | jlt | jsr | jle | ret =>
    rw [encodeWith, decodeWith_of_opcBr hc (fOpcode_encBr _ _ _), decodeBr, fCond_encBr, fOff9_encBr]
    rfl
  | trap u code =>
    have hu : c.trapUBit = 9 ∨ c.trapUBit = 10 := hc.trapUBit_eq
    rw [encodeWith, decodeWith_of_opcTrap hc (fOpcode_encTrap _ _ hu code), getLsbD_encTrap _ _ hu,
      fEight_encTrap _ _ hu]
  | _ =>
    rw [decodeWith_eq_decodeWord hc (by simp [encodeWith, parameterOpcodes])]
    simp [encodeWith, decodeWord, decodeWith, params]

end

/-! ### Words that agree off the ignored bits -/

/-- The two words agree in every bit but those of `ign`. -/
def AgreeOff (ign x w : Word) : Prop := ∀ k, ign.getLsbD k = false → x.getLsbD k = w.getLsbD k

theorem AgreeOff.xor_and_not {ign x w : Word} (h : AgreeOff ign x w) : (x ^^^ w) &&& ~~~ign = 0 := by
  apply BitVec.eq_of_getLsbD_eq
  intro k hk
  rw [BitVec.getLsbD_and, BitVec.getLsbD_xor, BitVec.getLsbD_not, BitVec.ofNat_eq_ofNat, BitVec.getLsbD_zero]
  cases hi : ign.getLsbD k with
  | true => simp
  | false => simp [h k hi]

theorem AgreeOff.eq {x w : Word} (h : AgreeOff 0 x w) : x = w :=
  BitVec.eq_of_getLsbD_eq fun k _ => h k BitVec.getLsbD_zero

theorem agreeOff_xor_and (ign x w : Word) : AgreeOff ign (w ^^^ (x &&& ign)) w := by
  intro k hi
  simp only [BitVec.getLsbD_xor, BitVec.getLsbD_and, hi, Bool.and_false, Bool.xor_false]

theorem agreeOff_of_lt {ign x w : Word} (h : ∀ k < 16, ign.getLsbD k = false → x.getLsbD k = w.getLsbD k) :
    AgreeOff ign x w := by
  intro k hi
  obtain hk | hk := lt_or_ge k 16
  · exact h k hk hi
  · rw [BitVec.getLsbD_of_ge x k hk, BitVec.getLsbD_of_ge w k hk]

section
variable {ign x w : Word} (h : AgreeOff ign x w)
include h

/-- A field that has no ignored bit is the same in both words. -/
theorem AgreeOff.extractLsb'_eq {start len : Nat} (hi : ign.extractLsb' start len = 0) :
    x.extractLsb' start len = w.extractLsb' start len := by
  apply BitVec.eq_of_getLsbD_eq
  intro k hk
  have hik : (ign.extractLsb' start len).getLsbD k = false := by rw [hi]; exact BitVec.getLsbD_zero
  simp only [BitVec.getLsbD_extractLsb', hk, decide_true, Bool.true_and] at hik ⊢
  exact h _ hik

theorem AgreeOff.fOpcode_eq (hi : fOpcode ign = 0) : fOpcode x = fOpcode w := h.extractLsb'_eq hi
theorem AgreeOff.fRegHi_eq (hi : ign.extractLsb' 8 3 = 0) : fRegHi x = fRegHi w :=
  congrArg BitVec.toFin (h.extractLsb'_eq hi)
theorem AgreeOff.fRegLo_eq (hi : ign.extractLsb' 0 3 = 0) : fRegLo x = fRegLo w :=
  congrArg BitVec.toFin (h.extractLsb'_eq hi)
theorem AgreeOff.fSix_eq (hi : fSix ign = 0) : fSix x = fSix w := h.extractLsb'_eq hi
theorem AgreeOff.fAmount_eq (hi : fAmount ign = 0) : fAmount x = fAmount w := h.extractLsb'_eq hi
theorem AgreeOff.fEight_eq (hi : fEight ign = 0) : fEight x = fEight w := h.extractLsb'_eq hi
theorem AgreeOff.fCond_eq (hi : fCond ign = 0) : fCond x = fCond w := h.extractLsb'_eq hi

end

/-! ### Format A, for its five opcodes at once -/

/-- Two constructors are the register and the immediate mode of the opcode `op` (30_encoding.md R83). -/
structure IsFormatA (op : BitVec 4) (reg : Reg → Bool → Reg → Instr) (imm : Reg → BitVec 6 → Instr) : Prop where
  encode_reg : ∀ d g s, encode (reg d g s) = encArithReg op d g s
  encode_imm : ∀ d f, encode (imm d f) = encArithImm op d f
  ignored_reg : ∀ d g s, (tableRow (reg d g s)).ignored = 0x00D8
  ignored_imm : ∀ d f, (tableRow (imm d f)).ignored = 0x00C0

theorem isFormatA_add : IsFormatA 0 .addReg .addImm :=
  ⟨fun _ _ _ => rfl, fun _ _ => rfl, fun _ _ _ => rfl, fun _ _ => rfl⟩

theorem isFormatA_sub : IsFormatA 1 .subReg .subImm :=
  ⟨fun _ _ _ => rfl, fun _ _ => rfl, fun _ _ _ => rfl, fun _ _ => rfl⟩

theorem isFormatA_and : IsFormatA 5 .andReg .andImm :=
  ⟨fun _ _ _ => rfl, fun _ _ => rfl, fun _ _ _ => rfl, fun _ _ => rfl⟩

theorem isFormatA_or : IsFormatA 6 .orReg .orImm :=
  ⟨fun _ _ _ => rfl, fun _ _ => rfl, fun _ _ _ => rfl, fun _ _ => rfl⟩

theorem isFormatA_cmp : IsFormatA 12 .cmpReg .cmpImm :=
  ⟨fun _ _ _ => rfl, fun _ _ => rfl, fun _ _ _ => rfl, fun _ _ => rfl⟩

section
variable {w x : Word} {op : BitVec 4} {reg : Reg → Bool → Reg → Instr} {imm : Reg → BitVec 6 → Instr}

theorem decodeArith_of_bit11 (h11 : w.getLsbD 11 = true) :
    decodeArith reg imm w = reg (fRegHi w) (w.getLsbD 5) (fRegLo w) := if_pos h11

theorem decodeArith_of_not_bit11 (h11 : w.getLsbD 11 = false) :
    decodeArith reg imm w = imm (fRegHi w) (fSix w) := if_neg (h11 ▸ Bool.false_ne_true)

end

/-! ### Ignored bits are not tested (D4) -/

section
variable {w x : Word}

theorem IsFormatA.decodeArith_eq {op : BitVec 4} {reg : Reg → Bool → Reg → Instr} {imm : Reg → BitVec 6 → Instr}
    (hA : IsFormatA op reg imm) (h : AgreeOff (tableRow (decodeArith reg imm w)).ignored x w) :
    decodeArith reg imm x = decodeArith reg imm w := by
  cases h11 : w.getLsbD 11 with
  | true =>
    rw [decodeArith_of_bit11 h11] at h ⊢
    rw [hA.ignored_reg] at h
    rw [decodeArith_of_bit11 ((h 11 rfl).trans h11), h 5 rfl, h.fRegHi_eq rfl, h.fRegLo_eq rfl]
  | false =>
    rw [decodeArith_of_not_bit11 h11] at h ⊢
    rw [hA.ignored_imm] at h
    rw [decodeArith_of_not_bit11 ((h 11 rfl).trans h11), h.fRegHi_eq rfl, h.fSix_eq rfl]

theorem decodeLd_of_agreeOff (h : AgreeOff (tableRow (decodeLd w)).ignored x w) : decodeLd x = decodeLd w := by
  unfold decodeLd at h ⊢
  cases h11 : w.getLsbD 11 with
  | true =>
    replace h : AgreeOff 0x00B8 x w := by cases h6 : w.getLsbD 6 <;> rw [h11, h6] at h <;> exact h
    rw [h 11 rfl, h 6 rfl, h11, h.fRegHi_eq rfl, h.fRegLo_eq rfl]
    rfl
  | false =>
    replace h : AgreeOff 0x0080 x w := by cases h6 : w.getLsbD 6 <;> rw [h11, h6] at h <;> exact h
    rw [h 11 rfl, h 6 rfl, h11, h.fRegHi_eq rfl, h.fSix_eq rfl]
    rfl

theorem decodeSt_of_agreeOff (h : AgreeOff (tableRow (decodeSt w)).ignored x w) : decodeSt x = decodeSt w := by
  unfold decodeSt at h ⊢
  cases h11 : w.getLsbD 11 with
  | true =>
    replace h : AgreeOff 0x00F8 x w := by rw [h11] at h; exact h
    rw [h 11 rfl, h11, h.fRegHi_eq rfl, h.fRegLo_eq rfl]
    rfl
  | false =>
    replace h : AgreeOff 0x0080 x w := by cases h6 : w.getLsbD 6 <;> rw [h11, h6] at h <;> exact h
    rw [h 11 rfl, h 6 rfl, h11, h.fRegHi_eq rfl, h.fSix_eq rfl]
    rfl

theorem decodeStack_of_agreeOff (h : AgreeOff (tableRow (decodeStack w)).ignored x w) :
    decodeStack x = decodeStack w := by
  have h' : AgreeOff 0x0E00 x w := by
    unfold decodeStack at h
    split at h <;> exact h
  rw [decodeStack, decodeStack, h' 8 rfl, h'.fEight_eq rfl]

theorem decodeBr_of_fCond_seven (h : (fCond w).toNat = 7) : decodeBr w = .ret := by
  rw [decodeBr, h]
  rfl

/-- Only RET has ignored bits among the jumps, and they leave its condition alone. -/
theorem decodeBr_of_agreeOff (h : AgreeOff (tableRow (decodeBr w)).ignored x w) : decodeBr x = decodeBr w := by
  obtain h7 | h7 := eq_or_ne (fCond w).toNat 7
  · rw [decodeBr_of_fCond_seven h7] at h ⊢
    replace h : AgreeOff 0x01FF x w := h
    exact decodeBr_of_fCond_seven ((congrArg BitVec.toNat (h.fCond_eq rfl)).trans h7)
  · have hlt := (fCond w).isLt
    have hx : x = w := by
      unfold decodeBr at h
      split at h
      case h_8 => simp only [imp_false] at *; omega
      all_goals exact AgreeOff.eq h
    rw [hx]

end

/-! ### The canonical word agrees with the word decoded -/

section
variable {w : Word}

theorem regBits_fRegHi (w : Word) : regBits (fRegHi w) = w.extractLsb' 8 3 := BitVec.ofNat_toNat _ _

theorem regBits_fRegLo (w : Word) : regBits (fRegLo w) = w.extractLsb' 0 3 := BitVec.ofNat_toNat _ _

section
variable {op : BitVec 4} (h : fOpcode w = op)
include h

theorem agreeOff_encArithReg (h11 : w.getLsbD 11 = true) :
    AgreeOff 0x00D8 (encArithReg op (fRegHi w) (w.getLsbD 5) (fRegLo w)) w := by
  subst h
  refine agreeOff_of_lt fun k hk hi => ?_
  simp only [encArithReg, fOpcode, regBits_fRegHi, regBits_fRegLo, BitVec.getLsbD_append, BitVec.getLsbD_extractLsb']
  interval_cases k <;> simp_all

theorem agreeOff_encArithImm (h11 : w.getLsbD 11 = false) :
    AgreeOff 0x00C0 (encArithImm op (fRegHi w) (fSix w)) w := by
  subst h
  refine agreeOff_of_lt fun k hk hi => ?_
  simp only [encArithImm, fOpcode, fSix, regBits_fRegHi, BitVec.getLsbD_append, BitVec.getLsbD_extractLsb']
  interval_cases k <;> simp_all

theorem agreeOff_encShift : AgreeOff 0x08F0 (encShift op (fRegHi w) (fAmount w)) w := by
  subst h
  refine agreeOff_of_lt fun k hk hi => ?_
  simp only [encShift, fOpcode, fAmount, regBits_fRegHi, BitVec.getLsbD_append, BitVec.getLsbD_extractLsb']
  interval_cases k <;> simp_all

/-- The amount field of NOT is ignored. -/
theorem agreeOff_encShift_amount (n : BitVec 4) : AgreeOff 0x08FF (encShift op (fRegHi w) n) w := by
  subst h
  refine agreeOff_of_lt fun k hk hi => ?_
  simp only [encShift, fOpcode, regBits_fRegHi, BitVec.getLsbD_append, BitVec.getLsbD_extractLsb']
  interval_cases k <;> simp_all

theorem agreeOff_encSix {b : BitVec 1} (h11 : w.getLsbD 11 = false) (h6 : w.getLsbD 6 = b.getLsbD 0) :
    AgreeOff 0x0080 (encSix op (fRegHi w) b (fSix w)) w := by
  subst h
  refine agreeOff_of_lt fun k hk hi => ?_
  simp only [encSix, fOpcode, fSix, regBits_fRegHi, BitVec.getLsbD_append, BitVec.getLsbD_extractLsb']
  interval_cases k <;> simp_all

theorem agreeOff_encTwo {b : BitVec 1} (h11 : w.getLsbD 11 = true) (h6 : w.getLsbD 6 = b.getLsbD 0) :
    AgreeOff 0x00B8 (encTwo op (fRegHi w) b (fRegLo w)) w := by
  subst h
  refine agreeOff_of_lt fun k hk hi => ?_
  simp only [encTwo, fOpcode, regBits_fRegHi, regBits_fRegLo, BitVec.getLsbD_append, BitVec.getLsbD_extractLsb']
  interval_cases k <;> simp_all

/-- Bit 6 is ignored in ST-reg. -/
theorem agreeOff_encTwo_bit6 (b : BitVec 1) (h11 : w.getLsbD 11 = true) :
    AgreeOff 0x00F8 (encTwo op (fRegHi w) b (fRegLo w)) w := by
  subst h
  refine agreeOff_of_lt fun k hk hi => ?_
  simp only [encTwo, fOpcode, regBits_fRegHi, regBits_fRegLo, BitVec.getLsbD_append, BitVec.getLsbD_extractLsb']
  interval_cases k <;> simp_all

theorem agreeOff_encFrame : AgreeOff 0x0EC0 (encFrame op (w.getLsbD 8) (fSix w)) w := by
  subst h
  refine agreeOff_of_lt fun k hk hi => ?_
  simp only [encFrame, fOpcode, fSix, BitVec.getLsbD_append, BitVec.getLsbD_extractLsb']
  interval_cases k <;> simp_all

theorem agreeOff_encBr {cond : BitVec 3} (hc : fCond w = cond) :
    AgreeOff 0x0000 (encBr op cond (fOff9 w)) w := by
  subst h hc
  refine agreeOff_of_lt fun k hk hi => ?_
  simp only [encBr, fOpcode, fCond, fOff9, BitVec.getLsbD_append, BitVec.getLsbD_extractLsb']
  interval_cases k <;> simp_all

/-- The offset field of RET is ignored. -/
theorem agreeOff_encBr_offset {cond : BitVec 3} (hc : fCond w = cond) (off : BitVec 9) :
    AgreeOff 0x01FF (encBr op cond off) w := by
  subst h hc
  refine agreeOff_of_lt fun k hk hi => ?_
  simp only [encBr, fOpcode, fCond, BitVec.getLsbD_append, BitVec.getLsbD_extractLsb']
  interval_cases k <;> simp_all

theorem agreeOff_encTrap : AgreeOff 0x0D00 (encTrap op 9 (w.getLsbD 9) (fEight w)) w := by
  subst h
  refine agreeOff_of_lt fun k hk hi => ?_
  simp only [encTrap, fOpcode, fEight, BitVec.getLsbD_or, BitVec.getLsbD_append, BitVec.getLsbD_extractLsb']
  cases h9 : w.getLsbD 9 <;> interval_cases k <;> simp_all

end

theorem agreeOff_encStack {b : BitVec 1} (h : fOpcode w = 10#4) (h8 : w.getLsbD 8 = b.getLsbD 0) :
    AgreeOff 0x0E00 (encStack b (fEight w)) w := by
  rw [encStack, ← h]
  refine agreeOff_of_lt fun k hk hi => ?_
  simp only [fOpcode, fEight, BitVec.getLsbD_append, BitVec.getLsbD_extractLsb']
  interval_cases k <;> simp_all

/-! ### The two directions, a case per opcode -/

theorem fOpcode_ignored (i : Instr) : fOpcode (tableRow i).ignored = 0 := by
  have hrows : ∀ r ∈ tableRows, fOpcode r.ignored = 0 := by decide
  exact hrows _ (tableRow_mem_tableRows i)

/-- Words that agree off the ignored bits of the row of one decode alike, reserved words apart, which have no field
but their low bits. -/
theorem DecodesBy.decodeWord_of_agreeOff {x : Word} {i : Instr} (hd : DecodesBy w i) (hwf : i.WellFormed)
    (ha : AgreeOff (tableRow i).ignored x w) : decodeWord x = i := by
  have hop : fOpcode x = fOpcode w := ha.fOpcode_eq (fOpcode_ignored i)
  cases hd with
  | add h => rw [(DecodesBy.add (hop.trans h)).decodeWord_eq, isFormatA_add.decodeArith_eq ha]
  | sub h => rw [(DecodesBy.sub (hop.trans h)).decodeWord_eq, isFormatA_sub.decodeArith_eq ha]
  | and h => rw [(DecodesBy.and (hop.trans h)).decodeWord_eq, isFormatA_and.decodeArith_eq ha]
  | or h => rw [(DecodesBy.or (hop.trans h)).decodeWord_eq, isFormatA_or.decodeArith_eq ha]
  | cmp h => rw [(DecodesBy.cmp (hop.trans h)).decodeWord_eq, isFormatA_cmp.decodeArith_eq ha]
  | shl h =>
    replace ha : AgreeOff 0x08F0 x w := ha
    rw [(DecodesBy.shl (hop.trans h)).decodeWord_eq, ha.fRegHi_eq rfl, ha.fAmount_eq rfl]
  | ashr h =>
    replace ha : AgreeOff 0x08F0 x w := ha
    rw [(DecodesBy.ashr (hop.trans h)).decodeWord_eq, ha.fRegHi_eq rfl, ha.fAmount_eq rfl]
  | lshr h =>
    replace ha : AgreeOff 0x08F0 x w := ha
    rw [(DecodesBy.lshr (hop.trans h)).decodeWord_eq, ha.fRegHi_eq rfl, ha.fAmount_eq rfl]
  | not h =>
    replace ha : AgreeOff 0x08FF x w := ha
    rw [(DecodesBy.not (hop.trans h)).decodeWord_eq, ha.fRegHi_eq rfl]
  | ld h => rw [(DecodesBy.ld (hop.trans h)).decodeWord_eq, decodeLd_of_agreeOff ha]
  | st h => rw [(DecodesBy.st (hop.trans h)).decodeWord_eq, decodeSt_of_agreeOff ha]
  | stack h => rw [(DecodesBy.stack (hop.trans h)).decodeWord_eq, decodeStack_of_agreeOff ha]
  | locs h =>
    replace ha : AgreeOff 0x0EC0 x w := ha
    rw [(DecodesBy.locs (hop.trans h)).decodeWord_eq, ha 8 rfl, ha.fSix_eq rfl]
  | br h => rw [(DecodesBy.br (hop.trans h)).decodeWord_eq, decodeBr_of_agreeOff ha]
  | trap h =>
    replace ha : AgreeOff 0x0D00 x w := ha
    rw [(DecodesBy.trap (hop.trans h)).decodeWord_eq, ha 9 rfl, ha.fEight_eq rfl]
  | reserved => cases hwf

theorem IsFormatA.agreeOff_encode {reg : Reg → Bool → Reg → Instr} {imm : Reg → BitVec 6 → Instr}
    {op : BitVec 4} (h : fOpcode w = op)
    (hA : IsFormatA op reg imm) :
    AgreeOff (tableRow (decodeArith reg imm w)).ignored (encode (decodeArith reg imm w)) w := by
  cases h11 : w.getLsbD 11 with
  | true =>
    rw [decodeArith_of_bit11 h11, hA.encode_reg, hA.ignored_reg]
    exact agreeOff_encArithReg h h11
  | false =>
    rw [decodeArith_of_not_bit11 h11, hA.encode_imm, hA.ignored_imm]
    exact agreeOff_encArithImm h h11

theorem agreeOff_encode_decodeLd (h : fOpcode w = 8#4) :
    AgreeOff (tableRow (decodeLd w)).ignored (encode (decodeLd w)) w := by
  unfold decodeLd
  cases h11 : w.getLsbD 11 with
  | true =>
    cases h6 : w.getLsbD 6 with
    | true => exact agreeOff_encTwo (b := 1) h h11 h6
    | false => exact agreeOff_encTwo (b := 0) h h11 h6
  | false =>
    cases h6 : w.getLsbD 6 with
    | true => exact agreeOff_encSix (b := 1) h h11 h6
    | false => exact agreeOff_encSix (b := 0) h h11 h6

theorem agreeOff_encode_decodeSt (h : fOpcode w = 9#4) :
    AgreeOff (tableRow (decodeSt w)).ignored (encode (decodeSt w)) w := by
  unfold decodeSt
  cases h11 : w.getLsbD 11 with
  | true => exact agreeOff_encTwo_bit6 h 0 h11
  | false =>
    cases h6 : w.getLsbD 6 with
    | true => exact agreeOff_encSix (b := 1) h h11 h6
    | false => exact agreeOff_encSix (b := 0) h h11 h6

theorem agreeOff_encode_decodeStack (h : fOpcode w = 10#4) :
    AgreeOff (tableRow (decodeStack w)).ignored (encode (decodeStack w)) w := by
  unfold decodeStack
  cases h8 : w.getLsbD 8 with
  | true => exact agreeOff_encStack (b := 1) h h8
  | false => exact agreeOff_encStack (b := 0) h h8

theorem agreeOff_encode_decodeBr (h : fOpcode w = 13#4) :
    AgreeOff (tableRow (decodeBr w)).ignored (encode (decodeBr w)) w := by
  have hlt := (fCond w).isLt
  unfold decodeBr
  split
  case h_1 hc => exact agreeOff_encBr (cond := 0) h (BitVec.eq_of_toNat_eq hc)
  case h_2 hc => exact agreeOff_encBr (cond := 1) h (BitVec.eq_of_toNat_eq hc)
  case h_3 hc => exact agreeOff_encBr (cond := 2) h (BitVec.eq_of_toNat_eq hc)
  case h_4 hc => exact agreeOff_encBr (cond := 3) h (BitVec.eq_of_toNat_eq hc)
  case h_5 hc => exact agreeOff_encBr (cond := 4) h (BitVec.eq_of_toNat_eq hc)
  case h_6 hc => exact agreeOff_encBr (cond := 5) h (BitVec.eq_of_toNat_eq hc)
  case h_7 hc => exact agreeOff_encBr (cond := 6) h (BitVec.eq_of_toNat_eq hc)
  case h_8 =>
    simp only [imp_false] at *
    exact agreeOff_encBr_offset (cond := 7) h (BitVec.eq_of_toNat_eq (show _ = 7 by omega)) 0

/-- Encoding what a word decodes to changes ignored bits of its row only. -/
theorem DecodesBy.agreeOff_encode {i : Instr} (hd : DecodesBy w i) : AgreeOff (tableRow i).ignored (encode i) w := by
  cases hd with
  | add h => exact isFormatA_add.agreeOff_encode h
  | sub h => exact isFormatA_sub.agreeOff_encode h
  | and h => exact isFormatA_and.agreeOff_encode h
  | or h => exact isFormatA_or.agreeOff_encode h
  | cmp h => exact isFormatA_cmp.agreeOff_encode h
  | shl h | ashr h | lshr h => exact agreeOff_encShift h
  | not h => exact agreeOff_encShift_amount h 15
  | ld h => exact agreeOff_encode_decodeLd h
  | st h => exact agreeOff_encode_decodeSt h
  | stack h => exact agreeOff_encode_decodeStack h
  | locs h => exact agreeOff_encFrame h
  | br h => exact agreeOff_encode_decodeBr h
  | trap h => exact agreeOff_encTrap h
  | reserved h => exact fun k _ => congrArg (·.getLsbD k) (Machine.fifteen_append_extractLsb' h)

end

/-! ### The obligations -/

/-- Settles O6: each canonical layout gives its fields back, under every valid setting of the parameters. -/
theorem decodeOfEncodeIsTheInstruction : Obligations.DecodeOfEncodeIsTheInstruction :=
  fun _ i hc => decodeWith_encodeWith hc i

/-- Settles O7: the canonical word agrees with the word off the ignored bits, and decodes back by the round trip. -/
theorem encodeOfDecodeKeepsEveryFieldBit : Obligations.EncodeOfDecodeKeepsEveryFieldBit :=
  fun w _ => ⟨(decodesBy_decodeWord w).agreeOff_encode.xor_and_not, decodeWith_encodeWith params_valid _⟩

/-- Settles O8: the changed word agrees with the word off the ignored bits of its row. -/
theorem ignoredBitsAreNotTested : Obligations.IgnoredBitsAreNotTested :=
  fun w x hwf => (decodesBy_decodeWord w).decodeWord_of_agreeOff hwf (agreeOff_xor_and _ x w)

end Sys2Proof
end

/-! ## Subtraction and comparison (41_alu.md sections 2 and 3, 45_branch.md section 1)

SUB and CMP both run the adder on the negated operand; `compareFlags` names the flags it gives. Their laws are
arithmetic on the unsigned values of the two words, and the conditional jumps after a CMP follow from them. -/

section
namespace Sys2Proof.Machine

/-! ### The adder on a negated operand -/

/-- The flags SUB and CMP give for `x[d] = a` and `op2 = b` (R144, R145). -/
def compareFlags (a b : Word) : Flags := (add16 (neg16 b) a).2

theorem add16_neg16_result (a b : Word) : (add16 (neg16 b) a).1 = a - b := by
  rw [add16_result, neg16_eq_neg, BitVec.add_comm, BitVec.sub_eq_add_neg]

theorem adderGives_compareFlags (a b : Word) : AdderGives (-b) a (a - b) (compareFlags a b) := by
  have h := adderGives_add16 (neg16 b) a
  rwa [add16_neg16_result, neg16_eq_neg] at h

/-- The body of SUB writes the difference, with the flags of the comparison. -/
theorem subBody_andAdvance (d : Reg) (op2 : Word) (s : State) : (subBody d op2 s).andAdvance =
    .next (((s.setReg d (s.reg d - op2)).setFlags (compareFlags (s.reg d) op2)).setPc (s.pc + 2)) := by
  rw [← add16_neg16_result]
  rfl

theorem cmpBody_andAdvance (d : Reg) (op2 : Word) (s : State) : (cmpBody d op2 s).andAdvance =
    .next ((s.setFlags (compareFlags (s.reg d) op2)).setPc (s.pc + 2)) := rfl

theorem exec_cmpReg (d : Reg) (g : Bool) (src : Reg) (s : State) : exec (.cmpReg d g src) s =
    .next ((s.setFlags (compareFlags (s.reg d) (s.reg src))).setPc (s.pc + 2)) :=
  cmpBody_andAdvance d (s.reg src) s

/-! ### Laws of the compare flags (R148) -/

/-- The sign bit is set from 0x8000 up. -/
theorem msb_iff_le_toNat (w : Word) : w.msb = true ↔ 32768 ≤ w.toNat := by
  rw [BitVec.msb_eq_decide, decide_eq_true_iff]

theorem toInt_eq_toNat_sub (w : Word) :
    w.toInt = if 32768 ≤ w.toNat then (w.toNat : Int) - 65536 else w.toNat := by
  rw [BitVec.toInt_eq_msb_cond, if_congr (msb_iff_le_toNat w) rfl rfl]
  rfl

section
variable (a b : Word)

theorem compareFlags_z_iff : (compareFlags a b).z = true ↔ a = b := by
  obtain ⟨-, -, -, -, hz⟩ := adderGives_compareFlags a b
  rw [hz]
  bv_omega

theorem compareFlags_c_iff : (compareFlags a b).c = true ↔ b ≠ 0 ∧ b.toNat ≤ a.toNat := by
  obtain ⟨-, hc, -⟩ := adderGives_compareFlags a b
  rw [hc]
  bv_omega

/-- Overflow by the sizes of the words: the sum of the negated operand and `x[d]` has the other sign than both. -/
theorem compareFlags_v_iff_toNat : (compareFlags a b).v = true ↔
    (32768 ≤ (-b).toNat ↔ 32768 ≤ a.toNat) ∧ ¬ (32768 ≤ (a - b).toNat ↔ 32768 ≤ (-b).toNat) := by
  obtain ⟨-, -, hv, -⟩ := adderGives_compareFlags a b
  rw [hv, ne_eq, Bool.eq_iff_iff (a := (-b).msb), Bool.eq_iff_iff (a := (a - b).msb), msb_iff_le_toNat,
    msb_iff_le_toNat, msb_iff_le_toNat]

theorem compareFlags_n_iff_toNat : (compareFlags a b).n = true ↔ 32768 ≤ (a - b).toNat := by
  obtain ⟨-, -, -, hn, -⟩ := adderGives_compareFlags a b
  rw [hn, msb_iff_le_toNat]

theorem compareFlags_v_iff (hb : b ≠ 0x8000) :
    (compareFlags a b).v = true ↔ a.toInt - b.toInt < -32768 ∨ 32767 < a.toInt - b.toInt := by
  rw [compareFlags_v_iff_toNat, toInt_eq_toNat_sub, toInt_eq_toNat_sub]
  bv_omega

/-- The sign test of a comparison: below, as signed numbers. -/
theorem compareFlags_n_ne_v_iff (hb : b ≠ 0x8000) :
    (compareFlags a b).n ≠ (compareFlags a b).v ↔ a.toInt < b.toInt := by
  rw [ne_eq, Bool.eq_iff_iff, compareFlags_v_iff_toNat, compareFlags_n_iff_toNat, toInt_eq_toNat_sub,
    toInt_eq_toNat_sub]
  bv_omega

/-- The anomaly at 0x8000, which is its own negation. -/
theorem compareFlags_v_iff_msb : (compareFlags a 0x8000).v = true ↔ a.msb = true := by
  rw [compareFlags_v_iff_toNat, msb_iff_le_toNat]
  bv_omega

theorem compareFlags_n_ne_v : (compareFlags a 0x8000).n ≠ (compareFlags a 0x8000).v := by
  rw [ne_eq, Bool.eq_iff_iff, compareFlags_v_iff_toNat, compareFlags_n_iff_toNat]
  bv_omega

end

/-! ### Conditions after a comparison (45_branch.md R221, last column) -/

section
variable (a b : Word) (hb : b ≠ 0x8000)
include hb

theorem compareFlags_jlt_iff : (compareFlags a b).jlt = true ↔ a.toInt < b.toInt :=
  (Flags.jlt_eq_true_iff _).trans (compareFlags_n_ne_v_iff a b hb)

theorem compareFlags_jge_iff : (compareFlags a b).jge = true ↔ b.toInt ≤ a.toInt := by
  rw [Flags.jge_eq_true_iff, ← not_iff_not, ← ne_eq, compareFlags_n_ne_v_iff a b hb, not_le]

theorem compareFlags_jle_iff : (compareFlags a b).jle = true ↔ a.toInt ≤ b.toInt := by
  rw [Flags.jle_eq_true_iff, compareFlags_n_ne_v_iff a b hb, compareFlags_z_iff, ← BitVec.toInt_inj, or_comm,
    le_iff_lt_or_eq]

theorem compareFlags_jgt_iff : (compareFlags a b).jgt = true ↔ b.toInt < a.toInt := by
  rw [← not_le, ← compareFlags_jle_iff a b hb, Flags.jle_eq_not_jgt, Bool.not_eq_true', Bool.not_eq_false]

end

theorem compareFlags_jeq_iff (a b : Word) : (compareFlags a b).jeq = true ↔ a = b := compareFlags_z_iff a b

/-! ### The obligations -/

/-- Settles O22: no meaning in register mode looks at S. -/
theorem signedFlagHasNoEffect : Obligations.SignedFlagHasNoEffect :=
  fun _ _ _ _ _ => ⟨rfl, rfl, rfl, rfl, rfl⟩

/-- Settles O25: both modes run the body of SUB, on `x[src]` and on the zero-extended immediate. -/
theorem subWritesDifferenceWithAdderFlags : Obligations.SubWritesDifferenceWithAdderFlags :=
  ⟨fun d src _ s => ⟨_, adderGives_compareFlags _ _, subBody_andAdvance d (s.reg src) s⟩,
    fun d imm s => ⟨_, adderGives_compareFlags _ _, subBody_andAdvance d (zext6 imm) s⟩⟩

/-- Settles O26: both modes run the body of CMP, on `x[src]` and on the zero-extended immediate. -/
theorem cmpSetsSubFlagsOnly : Obligations.CmpSetsSubFlagsOnly :=
  ⟨fun d src _ s => ⟨_, adderGives_compareFlags _ _, cmpBody_andAdvance d (s.reg src) s⟩,
    fun d imm s => ⟨_, adderGives_compareFlags _ _, cmpBody_andAdvance d (zext6 imm) s⟩⟩

/-- Settles O28: CMP leaves the compare flags, and each law is one of theirs. -/
theorem compareFlagLaws : Obligations.CompareFlagLaws := by
  intro d src g s t h
  obtain rfl := next_injective ((exec_cmpReg d g src s).symm.trans h)
  refine ⟨compareFlags_z_iff _ _, compareFlags_c_iff _ _, fun hb => ⟨compareFlags_v_iff _ _ hb,
    compareFlags_n_ne_v_iff _ _ hb⟩, fun hb => ?anomaly⟩
  case anomaly =>
    rw [hb]
    exact ⟨compareFlags_v_iff_msb _, compareFlags_n_ne_v _⟩

/-- Settles O29: after CMP each condition is the signed relation, and a jump tests its condition. -/
theorem compareThenBranchTestsSignedOrder : Obligations.CompareThenBranchTestsSignedOrder := by
  intro d src g off s t hb h
  obtain rfl := next_injective ((exec_cmpReg d g src s).symm.trans h)
  exact ⟨branchIf_of_iff (compareFlags_jlt_iff _ _ hb) off _, branchIf_of_iff (compareFlags_jle_iff _ _ hb) off _,
    branchIf_of_iff (compareFlags_jgt_iff _ _ hb) off _, branchIf_of_iff (compareFlags_jge_iff _ _ hb) off _,
    branchIf_of_iff (compareFlags_jeq_iff _ _) off _⟩

end Sys2Proof.Machine
end

/-! ## SHL and ASHR (42_shift_not.md R162, R163)

The shifter's flags over the wide value, and the floor of the signed quotient. -/

section
namespace Sys2Proof.Machine

/-! ### The shifter -/

/-- Carry is bit 16 of the value before it is narrowed (R162). -/
theorem shl16_c_iff (v : Word) (n : BitVec 4) :
    (shl16 v n).2.c = true ↔ v.toNat * 2 ^ n.toNat / 65536 % 2 = 1 := by
  simp only [shl16, Nat.shiftLeft_eq, Nat.testBit_eq_decide_div_mod_eq, decide_eq_true_iff]

theorem shl16_z_iff (v : Word) (n : BitVec 4) : (shl16 v n).2.z = true ↔ (shl16 v n).1.toNat = 0 :=
  decide_eq_true_iff.trans BitVec.toNat_eq

theorem toInt_ashr16 (v : Word) (n : BitVec 4) : (ashr16 v n).toInt = v.toInt / 2 ^ n.toNat := by
  rw [ashr16_eq_sshiftRight, BitVec.toInt_sshiftRight, Int.shiftRight_eq_div_pow, Nat.cast_pow, Nat.cast_ofNat]

theorem exec_shl (d : Reg) (n : BitVec 4) (s : State) : exec (.shl d n) s =
    .next (((s.setReg d (shl16 (s.reg d) n).1).setFlags (shl16 (s.reg d) n).2).setPc (s.pc + 2)) := rfl

theorem exec_ashr (d : Reg) (n : BitVec 4) (s : State) :
    exec (.ashr d n) s = .next ((s.setReg d (ashr16 (s.reg d) n)).setPc (s.pc + 2)) :=
  andAdvance_ok_setReg s d _

/-! ### The obligations -/

/-- Settles O30: SHL writes the shifter's result and flags. -/
theorem shlWritesShiftedValueAndFlags : Obligations.ShlWritesShiftedValueAndFlags :=
  fun d n s => ⟨_, _, shl16_toNat _ n, shl16_z_iff _ n, Iff.rfl, rfl, shl16_c_iff _ n, exec_shl d n s⟩

/-- Settles O31: the shifter rounds the signed quotient down, and LSHR of that is the fall-through. -/
theorem ashrWritesFloorOfSignedQuotient : Obligations.AshrWritesFloorOfSignedQuotient := by
  refine ⟨fun d n s => ⟨ashr16 (s.reg d) n, ?below, ?above, exec_ashr d n s⟩, fun v n => lshr16_toNat (ashr16 v n) n⟩
  all_goals
    have hpos : (0 : Int) < 2 ^ n.toNat := by positivity
    rw [toInt_ashr16]
  case below => exact Int.ediv_mul_le _ hpos.ne'
  case above => exact Int.lt_ediv_add_one_mul_self _ hpos

end Sys2Proof.Machine
end

/-! ## ST-imm, LD-imm and the frame on the stack (43_load_store.md)

LD-bp and ST-bp get an equation for each place the effective offset can lie: at most `sp` with both its bytes in the
region, above `sp`, and at the last byte of the region, where the model stops (log entry 6). -/

section
namespace Sys2Proof.Machine

/-! ### The immediate -/

theorem zext6_eq_ofNat (imm : BitVec 6) : zext6 imm = BitVec.ofNat 16 imm.toNat := by
  have := imm.isLt
  apply BitVec.eq_of_toNat_eq
  rw [zext6_toNat, BitVec.toNat_ofNat, Nat.mod_eq_of_lt (by omega)]

/-- An immediate fits in the low byte (R91). -/
theorem hiByte_zext6 (imm : BitVec 6) : hiByte (zext6 imm) = 0 := by
  have := imm.isLt
  apply BitVec.eq_of_toNat_eq
  rw [toNat_hiByte, zext6_toNat]
  exact Nat.div_eq_of_lt (by omega)

/-! ### LD-bp and ST-bp, an equation per case -/

section
variable {off : BitVec 6} {s : State}

theorem exec_ldBp_of_le (d : Reg) (hle : bpOffset s.bp off ≤ s.sp.toNat) (hlt : bpOffset s.bp off < 65535) :
    exec (.ldBp d off) s = .next (s.setReg d (s.stack.readWord (bpOffset s.bp off))).advance := by
  change execLdBp d off s = _
  rw [execLdBp, bpEa_of_le hle, Res.bind_ok, stackRead_of_lt s hlt, Res.bind_ok, Res.andAdvance_ok]

theorem exec_ldBp_of_gt (d : Reg) (h : s.sp.toNat < bpOffset s.bp off) :
    exec (.ldBp d off) s = .next (s.raise .illegalAccess (bpOffset s.bp off)) := by
  change execLdBp d off s = _
  rw [execLdBp, bpEa_of_gt h, Res.bind_ended, Res.andAdvance_ended]

theorem exec_ldBp_at_end (d : Reg) (hle : bpOffset s.bp off ≤ s.sp.toNat) (hend : bpOffset s.bp off = 65535) :
    exec (.ldBp d off) s = .fault (.stackOffsetOutsideRegion 65535) := by
  change execLdBp d off s = _
  rw [execLdBp, bpEa_of_le hle, Res.bind_ok, hend]
  rfl

theorem exec_stBp_of_le (src : Reg) (hle : bpOffset s.bp off ≤ s.sp.toNat) (hlt : bpOffset s.bp off < 65535) :
    exec (.stBp src off) s =
      .next (s.setStack (s.stack.writeWord (bpOffset s.bp off) (s.reg src))).advance := by
  change execStBp src off s = _
  rw [execStBp, bpEa_of_le hle, Res.bind_ok, stackWrite_of_lt _ s hlt, Res.andAdvance_ok]

theorem exec_stBp_of_gt (src : Reg) (h : s.sp.toNat < bpOffset s.bp off) :
    exec (.stBp src off) s = .next (s.raise .illegalAccess (bpOffset s.bp off)) := by
  change execStBp src off s = _
  rw [execStBp, bpEa_of_gt h, Res.bind_ended, Res.andAdvance_ended]

theorem exec_stBp_at_end (src : Reg) (hle : bpOffset s.bp off ≤ s.sp.toNat) (hend : bpOffset s.bp off = 65535) :
    exec (.stBp src off) s = .fault (.stackOffsetOutsideRegion 65535) := by
  change execStBp src off s = _
  rw [execStBp, bpEa_of_le hle, Res.bind_ok, hend]
  rfl

end

/-! ### The obligations -/

/-- Settles O34: LD-imm writes the zero-extended immediate, as every instruction that writes one register does. -/
theorem ldImmLoadsZeroExtendedImmediate : Obligations.LdImmLoadsZeroExtendedImmediate :=
  fun d imm s => ⟨zext6 imm, zext6_toNat imm, andAdvance_ok_setReg s d (zext6 imm)⟩

/-- Settles O37: off 0xFFFF the store is the region's word store of a word with high byte 0, at 0xFFFF it is fatal. -/
theorem stImmStoresBothBytes : Obligations.StImmStoresBothBytes := by
  intro a imm s hm
  rw [exec_stImm, endedBy_eq_raise, ← zext6_eq_ofNat]
  refine ⟨fun ha => ⟨_, Memory.storedWord_writeWord _ (s.reg a).isLt hm, ?high, memWrite_andAdvance_of_ne _ s ha⟩,
    memWrite_andAdvance_ffff _ s⟩
  case high => exact (Memory.read_writeWord_hi _ (s.reg a).isLt hm).trans (hiByte_zext6 imm)

/-- Settles O38: an offset at most `sp` is below 65535, so its word is read; one above `sp` is fatal. -/
theorem ldBpLoadsFrameSlot : Obligations.LdBpLoadsFrameSlot := by
  intro d off s hsp
  rw [wordAt_eq_readWord, endedBy_eq_raise]
  split
  case isTrue h => exact exec_ldBp_of_gt d h
  case isFalse h =>
    have hle : bpOffset s.bp off ≤ s.sp.toNat := Nat.le_of_not_lt h
    exact exec_ldBp_of_le d hle (by omega)

/-- Settles O39: an offset at most `sp` is below 65535, so its word is stored; one above `sp` is fatal. -/
theorem stBpStoresFrameSlot : Obligations.StBpStoresFrameSlot := by
  intro src off s hk hsp
  rw [endedBy_eq_raise]
  refine ⟨fun hle => ⟨_, Memory.storedWord_writeWord _ (by omega) hk, ?stored⟩, exec_stBp_of_gt src⟩
  case stored => exact exec_stBp_of_le src hle (show s.bp.toNat + 2 * off.toNat < 65535 by omega)

/-- Settles O40: the access passes the check against `sp`, and its second byte does not exist. -/
theorem frameSlotAcrossRegionEndStops : Obligations.FrameSlotAcrossRegionEndStops := by
  intro r off s hsp hend
  have hle : bpOffset s.bp off ≤ s.sp.toNat := by
    rw [hsp]
    exact hend.le
  exact ⟨exec_ldBp_at_end r hle hend, exec_stBp_at_end r hle hend⟩

end Sys2Proof.Machine
end

/-! ## PUSH then POP (44_stack.md section 2)

Pops take the pushed words from the top down, so the registers of the mask get them in reverse. -/

section
namespace Sys2Proof.Machine

/-- After a PUSH from a list of registers, pops into the same list reverse their values. -/
theorem Popped.reg_of_pushed {rs : List Reg} {s t u : State} (hq : Popped rs t.advance u) (hp : Pushed rs s t)
    (hk : s.stack.wf = true) {k : Nat} (hlt : k < rs.length) :
    u.reg rs[k] = s.reg (rs[rs.length - 1 - k]'(by omega)) := by
  have haddr : t.advance.sp.toNat - 2 * (k + 1) = s.sp.toNat + 2 * (rs.length - 1 - k) := by
    rw [State.advance_sp, hp.sp]
    omega
  rw [hq.popped k hlt, haddr, State.advance_stack, hp.words hk]

/-- After a PUSH, pops into the list pushed from bring `sp` back. -/
theorem Popped.sp_of_pushed {rs : List Reg} {s t u : State} (hq : Popped rs t.advance u) (hp : Pushed rs s t) :
    u.sp = s.sp := by
  apply BitVec.eq_of_toNat_eq
  rw [hq.sp, State.advance_sp, hp.sp, Nat.add_sub_cancel]

/-- The `k`-th register a mask names is the `k`-th of its list. -/
theorem exists_getElem_of_maskReg {m : BitVec 8} {k : Nat} {r : Reg} (h : maskReg m k = some r) :
    ∃ hk : k < (maskRegs m).length, (maskRegs m)[k] = r :=
  List.getElem?_eq_some_iff.1 h

/-- Settles O44: the POP finds the words the PUSH left, and takes them from the top down. -/
theorem pushThenPopReversesRegisters : Obligations.PushThenPopReversesRegisters := by
  intro m s hm hk hfit
  obtain ⟨p, hpush, hp⟩ := exec_push_of_le hfit
  have hroom : 2 * maskCount m ≤ p.advance.sp.toNat := (Nat.le_add_left _ _).trans_eq hp.sp.symm
  obtain ⟨q, hpop, hq⟩ := exec_pop_of_le hm hroom
  refine ⟨p.advance, q.advance, hpush, hpop, hq.sp_of_pushed hp, ?status, ?reversed, ?outside⟩
  case status => exact hq.status.trans hp.status
  case reversed =>
    intro k r r' _ hr hr'
    obtain ⟨hk', rfl⟩ := exists_getElem_of_maskReg hr
    obtain ⟨_, rfl⟩ := exists_getElem_of_maskReg hr'
    exact hq.reg_of_pushed hp hk hk'
  case outside =>
    intro r hr
    have hnot : r ∉ maskRegs m := fun hmem => Bool.false_ne_true (hr.symm.trans ((mem_maskRegs m r).1 hmem))
    exact (hq.other r hnot).trans (hp.reg r)

end Sys2Proof.Machine
end

/-! ## JSR and RET (45_branch.md sections 3 and 4) -/

section
namespace Sys2Proof.Machine

/-! ### JSR and RET, an equation per case -/

theorem execJsr_answers (off : BitVec 9) (s : State) : ∃ t, execJsr off s = .next t :=
  ((push_noFault _ s).bind fun _ t _ => (push_noFault _ t).bind fun _ _ _ => Res.noFault_ok _ _).andJump

theorem execRet_answers (s : State) : ∃ t, execRet s = .next t :=
  ((pop_noFault _).bind fun _ _ _ => pop_noFault _).andJump

/-- The stack region after both pushes of a JSR: the return address, and `bp` above it (R227). -/
def frameStack (s : State) : Memory := (s.stack.writeWord s.sp.toNat (s.pc + 2)).writeWord (s.sp.toNat + 2) s.bp

theorem exec_jsr_of_le (off : BitVec 9) {s : State} (hsp : s.sp.toNat ≤ 65530) : exec (.jsr off) s =
    .next ((((s.setStack (frameStack s)).setSp (s.sp + 4)).setBp (s.sp + 4)).setPc (targetOf s off)) := by
  obtain ⟨t, h⟩ := execJsr_answers off s
  obtain ⟨-, rfl⟩ | ⟨hgt, -⟩ | ⟨hgt, -⟩ := execJsr_cases h
  · exact branchTarget_eq_targetOf s off ▸ h
  · omega
  · omega

theorem exec_jsr_one_push (off : BitVec 9) {s : State} (hgt : 65530 < s.sp.toNat) (hle : s.sp.toNat ≤ 65532) :
    exec (.jsr off) s = .next (((s.setStack (s.stack.writeWord s.sp.toNat (s.pc + 2))).setSp (s.sp + 2)).raise
      .stackOverflow (s.sp.toNat + 4 : Nat)) := by
  obtain ⟨t, h⟩ := execJsr_answers off s
  obtain ⟨hle', -⟩ | ⟨-, -, rfl⟩ | ⟨hgt', -⟩ := execJsr_cases h
  · omega
  · exact h
  · omega

theorem exec_jsr_no_push (off : BitVec 9) {s : State} (hgt : 65532 < s.sp.toNat) :
    exec (.jsr off) s = .next (s.raise .stackOverflow (s.sp.toNat + 2 : Nat)) := by
  obtain ⟨t, h⟩ := execJsr_answers off s
  obtain ⟨hle, -⟩ | ⟨-, hle, -⟩ | ⟨-, rfl⟩ := execJsr_cases h
  · omega
  · omega
  · exact h

theorem exec_ret_of_ge {s : State} (hbp : 4 ≤ s.bp.toNat) : exec .ret s =
    .next (((s.setSp (s.bp - 4)).setBp (s.stack.readWord (s.bp.toNat - 2))).setPc
      (s.stack.readWord (s.bp.toNat - 4))) := by
  obtain ⟨t, h⟩ := execRet_answers s
  obtain ⟨-, rfl⟩ | ⟨-, hlt, -⟩ | ⟨hlt, -⟩ := execRet_cases h
  · exact h
  · omega
  · omega

theorem exec_ret_one_pop {s : State} (hge : 2 ≤ s.bp.toNat) (hlt : s.bp.toNat < 4) : exec .ret s =
    .next (((s.setSp (s.bp - 2)).setBp (s.stack.readWord (s.bp.toNat - 2))).raise .stackUnderflow
      ((s.bp.toNat : Int) - 4)) := by
  obtain ⟨t, h⟩ := execRet_answers s
  obtain ⟨hge', -⟩ | ⟨-, -, rfl⟩ | ⟨hlt', -⟩ := execRet_cases h
  · omega
  · exact h
  · omega

theorem exec_ret_no_pop {s : State} (hlt : s.bp.toNat < 2) :
    exec .ret s = .next ((s.setSp s.bp).raise .stackUnderflow ((s.bp.toNat : Int) - 2)) := by
  obtain ⟨t, h⟩ := execRet_answers s
  obtain ⟨hge, -⟩ | ⟨hge, -, -⟩ | ⟨-, rfl⟩ := execRet_cases h
  · omega
  · omega
  · exact h

/-! ### The frame JSR leaves -/

theorem Memory.readWord_congr {m m' : Memory} {a : Nat} (hlo : m.read a = m'.read a)
    (hhi : m.read (a + 1) = m'.read (a + 1)) : m.readWord a = m'.readWord a := by
  rw [Memory.readWord, Memory.readWord, hlo, hhi]

section
variable {s : State} (hk : s.stack.wf = true) (hsp : s.sp.toNat ≤ 65530)
include hk hsp

theorem readWord_frameStack_returnAddress : (frameStack s).readWord s.sp.toNat = s.pc + 2 := by
  rw [frameStack, Memory.readWord_writeWord_ne _ _ (.inl (by omega)),
    Memory.readWord_writeWord_same _ (by omega) hk]

theorem readWord_frameStack_bp : (frameStack s).readWord (s.sp.toNat + 2) = s.bp :=
  Memory.readWord_writeWord_same _ (by omega) (Memory.wf_writeWord _ (by omega) hk)

end

theorem read_frameStack_outside (s : State) {a : Nat} (ha : a < s.sp.toNat ∨ s.sp.toNat + 4 ≤ a) :
    (frameStack s).read a = s.stack.read a := by
  rw [frameStack, Memory.read_writeWord_ne _ _ (by omega) (by omega),
    Memory.read_writeWord_ne _ _ (by omega) (by omega)]

/-! ### The obligations -/

/-- Settles O50: both pushes fit, or the first alone, or neither. -/
theorem jsrOpensAFrame : Obligations.JsrOpensAFrame := by
  intro off s hk
  simp only [wordAt_eq_readWord, endedBy_eq_raise]
  exact ⟨fun hsp => ⟨frameStack s, readWord_frameStack_returnAddress hk hsp, readWord_frameStack_bp hk hsp,
      fun _ => read_frameStack_outside s, exec_jsr_of_le off hsp⟩,
    fun hgt hle => ⟨_, Memory.storedWord_writeWord _ (by omega) hk, exec_jsr_one_push off hgt hle⟩,
    exec_jsr_no_push off⟩

/-- Settles O51: both pops find a value, or the first alone, or neither. -/
theorem retClosesTheFrame : Obligations.RetClosesTheFrame := by
  intro s
  simp only [wordAt_eq_readWord, endedBy_eq_raise]
  exact ⟨exec_ret_of_ge, exec_ret_one_pop, exec_ret_no_pop⟩

/-- Settles O52: the RET reads its two words from the frame's four bytes, which are as the JSR left them. -/
theorem jsrThenRetRestoresCaller : Obligations.JsrThenRetRestoresCaller := by
  intro off s t u hk hsp ht hbp hframe
  obtain rfl := next_injective ((exec_jsr_of_le off hsp).symm.trans ht)
  have hbp' : u.bp.toNat = s.sp.toNat + 4 := by rw [hbp]; bv_omega
  refine ⟨_, exec_ret_of_ge (by omega), ?pc, ?sp, ?bp, rfl, fun _ => rfl⟩
  case pc =>
    rw [State.setPc_pc, show u.bp.toNat - 4 = s.sp.toNat by omega, ← readWord_frameStack_returnAddress hk hsp]
    exact Memory.readWord_congr (hframe _ (by omega) (by omega)) (hframe _ (by omega) (by omega))
  case sp =>
    simp only [State.setPc_sp, State.setBp_sp, State.setSp_sp, hbp]
    bv_omega
  case bp =>
    rw [State.setPc_bp, State.setBp_bp, show u.bp.toNat - 2 = s.sp.toNat + 2 by omega]
    refine Eq.trans ?_ (readWord_frameStack_bp hk hsp)
    exact Memory.readWord_congr (hframe _ (by omega) (by omega)) (hframe _ (by omega) (by omega))

end Sys2Proof.Machine
end

/-! ## Even stack pointers (44_stack.md section 4, 10_state.md section 6)

A step keeps `sp` even when it and `bp` were: every operation moves `sp` by whole words, and RET takes it from `bp`.
It does not keep `bp` even, since RET loads it with any word of the stack; two RETs in a row make `sp` odd. -/

section
namespace Sys2Proof.Machine

/-! ### What a step does to `sp` and `bp` -/

theorem Effect.sp_mod_two {i : Instr} {s t : State} (e : Effect i s t) (hsp : s.sp.toNat % 2 = 0)
    (hbp : s.bp.toNat % 2 = 0) (ht : t.status = .running) : t.sp.toNat % 2 = 0 := by
  cases e with
  | raises | overflows | underflows | callOverflows | returnUnderflows | returnUnderflowsAtOnce | halts => cases ht
  | pushes hu => rw [State.advance_sp, hu.sp]; omega
  | pops hu => rw [State.advance_sp, hu.sp]; omega
  | discards h => rw [State.advance_sp, State.setSp_sp, toNat_sub_two h]; omega
  | movesSp v hv => rw [State.advance_sp, State.setSp_sp]; unfold locsBytes at hv; omega
  | calls _ h => simp only [State.setPc_sp, State.setBp_sp, State.setSp_sp]; bv_omega
  | returns h => simp only [State.setPc_sp, State.setBp_sp, State.setSp_sp]; bv_omega
  | _ => exact hsp

/-- Of the instructions but RET only JSR writes `bp`, and sets it above its two pushes. -/
theorem Effect.bp_cases {i : Instr} {s t : State} (e : Effect i s t) (hi : i ≠ .ret) :
    t.bp = s.bp ∨ t.bp = s.sp + 4 ∧ s.sp.toNat ≤ 65530 := by
  cases e with
  | returns | returnUnderflows | returnUnderflowsAtOnce => exact absurd rfl hi
  | calls _ h => exact .inr ⟨rfl, h⟩
  | pushes hu | overflows _ _ hu => exact .inl hu.bp
  | pops hu | underflows _ _ _ hu => exact .inl hu.bp
  | _ => exact .inl rfl

/-! ### Two RETs -/

/-- A start with RET at address 0 and a frame whose saved `bp` is the odd word 5. -/
def oddFrame : State :=
  { State.reset with sp := 8, bp := 8, mem := [(1, 0xDE)], stack := [(6, 5)] }

/-- `oddFrame` after two RETs: the first has set `bp` to 5, the second `sp` to 5 - 4. -/
def afterTwoRets : State := { oddFrame with sp := 1, bp := 0 }

theorem stepsFrom_oddFrame : stepsFrom 2 oddFrame = some afterTwoRets := by decide

theorem oddFrame_inv : oddFrame.Inv := ⟨rfl, rfl, fun _ => by decide⟩

theorem oddFrame_hostReady : oddFrame.HostReady := by
  unfold State.HostReady
  decide

/-! ### The obligations -/

/-- Settles O46: every effect that lets the run go on keeps `sp` even and in range, and `bp` unless it is RET's. -/
theorem evenStackPointersAreKeptByAStep : Obligations.EvenStackPointersAreKeptByAStep := by
  intro s t hready h ht
  obtain ⟨hsp2, hsp, hbp2, hbp⟩ := hready
  obtain ⟨-, rfl | he⟩ := step_next_instrAt h
  · cases ht
  · have e := exec_effect he
    refine ⟨e.sp_mod_two hsp2 hbp2 ht, e.sp_le hsp ht, fun hret => ?bp⟩
    case bp =>
      obtain hb | ⟨hb, hle⟩ := e.bp_cases hret
      · rw [hb]
        exact ⟨hbp2, hbp⟩
      · rw [hb]
        constructor <;> bv_omega

/-- Refutes O47: from `oddFrame`, whose `sp` and `bp` are 8, two RETs leave `sp` at 1 with the run going on. -/
theorem not_stackPointerStaysEvenOverRuns : ¬ Obligations.StackPointerStaysEvenOverRuns := by
  intro h
  have heven := h oddFrame afterTwoRets 2 oddFrame_inv oddFrame_hostReady stepsFrom_oddFrame rfl
  exact absurd heven (by decide)

end Sys2Proof.Machine
end

/-! ## JMP, and the frame of CMP and the jumps (41_alu.md section 2, 45_branch.md sections 1 and 4)

CMP in both modes is one write of the flags, and each of the six jumps is `branchIf` on a condition of its own. -/

section
namespace Sys2Proof.Machine

/-- CMP in both modes sets flags and `pc` only. -/
theorem exec_compare {d src : Reg} {g : Bool} {imm : BitVec 6} {i : Instr} (s : State)
    (hi : i = .cmpReg d g src ∨ i = .cmpImm d imm) : ∃ f, exec i s = .next ((s.setFlags f).setPc (s.pc + 2)) := by
  obtain rfl | rfl := hi
  · exact ⟨_, cmpBody_andAdvance d (s.reg src) s⟩
  · exact ⟨_, cmpBody_andAdvance d (zext6 imm) s⟩

/-- Each of the six jumps is a conditional jump on some condition. -/
theorem exec_isJump {i : Instr} (s : State) (hi : isJump i = true) : ∃ b off, exec i s = branchIf b off s := by
  cases i with
  | jmp off => exact ⟨true, off, rfl⟩
  | jgt off => exact ⟨s.flags.jgt, off, rfl⟩
  | jeq off => exact ⟨s.flags.jeq, off, rfl⟩
  | jge off => exact ⟨s.flags.jge, off, rfl⟩
  | jlt off => exact ⟨s.flags.jlt, off, rfl⟩
  | jle off => exact ⟨s.flags.jle, off, rfl⟩
  | _ => cases hi

theorem exec_jmp (off : BitVec 9) (s : State) : exec (.jmp off) s = .next (s.setPc (targetOf s off)) :=
  (branchIf_eq true off s).trans (by rw [branchTarget_eq_targetOf]; rfl)

/-- A target as an integer, modulo 65536 (R220). -/
theorem toNat_targetOf (s : State) (off : BitVec 9) :
    ((targetOf s off).toNat : Int) = ((s.pc.toNat : Int) + 2 * off.toInt) % 65536 := by
  rw [targetOf, BitVec.toNat_ofInt]
  omega

/-! ### The obligations -/

/-- Settles O48: JMP goes to the target, an exact integer modulo 65536. -/
theorem jmpGoesToTarget : Obligations.JmpGoesToTarget :=
  fun off s => ⟨targetOf s off, toNat_targetOf s off, exec_jmp off s⟩

/-- Settles O56: CMP writes flags and `pc`, a jump `pc` alone. -/
theorem frameOfCompareAndJumps : Obligations.FrameOfCompareAndJumps := by
  refine ⟨fun d src g imm i s t hi h => ?compare, fun i s t hi h => ?jump⟩
  case compare =>
    obtain ⟨f, hf⟩ := exec_compare s hi
    obtain rfl := next_injective (hf.symm.trans h)
    exact ⟨fun _ => rfl, rfl, rfl, rfl, rfl, fun _ => rfl, fun _ => rfl⟩
  case jump =>
    obtain ⟨b, off, hb⟩ := exec_isJump s hi
    obtain rfl := next_injective ((hb.trans (branchIf_eq b off s)).symm.trans h)
    exact ⟨fun _ => rfl, rfl, rfl, rfl, rfl, rfl, fun _ => rfl, fun _ => rfl⟩

end Sys2Proof.Machine
end

/-! ## Fatal conditions at a single check, and at the fetch (60_exceptions.md) -/

section
namespace Sys2Proof.Machine

/-- An instruction that makes no second stack operation ends a run by a fatal condition at its one check, with
nothing changed before. -/
theorem Effect.eq_raise_of_faulted {i : Instr} {s t : State} {r : Report} (e : Effect i s t)
    (hi : mayStopPartWay i = false) (hs : s.status = .running) (ht : t.status = .faulted r) :
    ∃ c x, t = s.raise c x := by
  cases e with
  | raises x => exact ⟨_, x, rfl⟩
  | pushes | overflows | discards | pops | underflows | calls | callOverflows | returns | returnUnderflows
  | returnUnderflowsAtOnce => cases hi
  | halts => cases ht
  | _ => cases hs.symm.trans ht

/-- Settles O12: the fetch at 0xFFFF is the whole step. -/
theorem fetchAtLastByteIsFatal : Obligations.FetchAtLastByteIsFatal :=
  fun _ hs hpc => step_fetch_ffff hs hpc

/-- Settles O19: the state reached is `raise` of the state before, which writes the run status alone. -/
theorem fatalConditionLeavesStateOfSingleCheckInstructions :
    Obligations.FatalConditionLeavesStateOfSingleCheckInstructions := by
  intro i s t r hi hs h ht
  obtain ⟨c, x, rfl⟩ := (exec_effect h).eq_raise_of_faulted hi hs ht
  rw [State.eq_report_of_raise_status ht]
  rfl

end Sys2Proof.Machine
end

/-! ## The state after reset, and words of the spec (10_state.md section 7, 95_test_vectors.md section 2) -/

section
namespace Sys2Proof.Machine

theorem State.reset_reg (r : Reg) : State.reset.reg r = 0 := Vector.getElem_replicate r.isLt

/-- Settles O1: the fields of reset, and the reads of its empty regions. -/
theorem resetLeavesAllZeroAndRunning : Obligations.ResetLeavesAllZeroAndRunning :=
  ⟨State.reset_reg, rfl, rfl, rfl, fun _ => rfl, fun _ => rfl, rfl, rfl⟩

/-- Settles O5: the decoder and the encoder compute the words. -/
theorem specWordsDecodeAndEncode : Obligations.SpecWordsDecodeAndEncode := by
  unfold Obligations.SpecWordsDecodeAndEncode
  decide

end Sys2Proof.Machine
end
